-- ==== Sys2Proof/Word.lean ====
section
/-! DEFINITION. The two kinds of element the block handles: bytes and 32-bit values. -/

namespace Sys2Proof

/-- An 8-bit unit of a byte buffer (00_scope.md R9). -/
abbrev Byte := BitVec 8

/-- A value, carried as a 32-bit two's-complement word (00_scope.md R8, 92_eei_decisions.md D5):
`w.toInt` is the integer it stands for, `w.toNat` the unsigned word. -/
abbrev Value := BitVec 32

end Sys2Proof
end

