-- ==== Sys2Proof/Config.lean ====
section
/-! DEFINITION. The named constants of 00_scope.md R6 and the open parameters of R7. R5: none of the constants is
configurable. The source leaves no result undefined (93_implementation_defined.md section 1), so there is no free value. -/

namespace Sys2Proof

/-- First byte of a medium record (R6). -/
def tagMedium : Byte := 0x80#8

/-- First byte of a large record (R6). -/
def tagLarge : Byte := 0x81#8

/-- Total bytes of a small record (R6). -/
abbrev lenSmall : Nat := 1

/-- Total bytes of a medium record, tag included (R6). -/
abbrev lenMedium : Nat := 3

/-- Total bytes of a large record, tag included (R6). -/
abbrev lenLarge : Nat := 5

/-- Least value of the small domain (R6). -/
abbrev smallMin : Int := -126

/-- Greatest value of the small domain (R6). -/
abbrev smallMax : Int := 127

/-- Least value the medium shape can hold (R6). -/
abbrev mediumMin : Int := -32768

/-- Greatest value the medium shape can hold (R6). -/
abbrev mediumMax : Int := 32767

/-- Least value of an `Int32` (R6). -/
abbrev int32Min : Int := -2147483648

/-- Greatest value of an `Int32` (R6). -/
abbrev int32Max : Int := 2147483647

/-- The open parameters of R7: `nmax`, the most values one ENCODE accepts, and `bmax`, the most bytes one DECODE
accepts. `none` is unbounded, which R7 allows a model to take. -/
structure Params where
  nmax : Option Nat
  bmax : Option Nat
  deriving DecidableEq, Repr

end Sys2Proof
end

