-- ==== Sys2Proof/Syntax.lean ====
section
/-! DEFINITION. The record operations, one constructor for each row of spec/opcode_table.json. -/

namespace Sys2Proof

/-- The six record operations (30_encoding.md R96). The operands of a decoder operation are the bytes of its record
after the tag, lowest offset first; the operand of an encoder operation is the value it encodes. -/
inductive Instr where
  /-- `DEC.SMALL` (R154): `val8` is the tag candidate, which is the whole record. -/
  | decSmall (val8 : Byte)
  /-- `DEC.MEDIUM` (R155): the two payload bytes. -/
  | decMedium (p0 p1 : Byte)
  /-- `DEC.LARGE` (R156): the four payload bytes. -/
  | decLarge (p0 p1 p2 p3 : Byte)
  /-- `ENC.SMALL` (R132). -/
  | encSmall (v : Value)
  /-- `ENC.MEDIUM` (R133). -/
  | encMedium (v : Value)
  /-- `ENC.LARGE` (R134). -/
  | encLarge (v : Value)
  deriving DecidableEq, Repr

end Sys2Proof
end

