-- ==== Sys2Proof/Machine/State.lean ====
section
/-! DEFINITION. The state of the block (10_state.md R24, R25), the host's turns, the reasons a step can stop, and the
reset state (R35). Plain data. -/

namespace Sys2Proof.Machine

/-- The phase of a unit (R23). -/
inductive Phase where
  /-- After reset; no transaction has run. -/
  | idle
  /-- A transaction is in progress. -/
  | run
  /-- The transaction has finished and its results are stable. -/
  | done
  deriving DecidableEq, Repr

/-- The error cause `DEC.ERR` (R30, R201). -/
inductive ErrCause where
  /-- 0, no error. -/
  | noError
  /-- 1, Truncated Record. -/
  | truncatedRecord
  deriving DecidableEq, Repr

/-- The two units (R20). -/
inductive UnitId where
  | enc
  | dec
  deriving DecidableEq, Repr

/-- The four address spaces (20_memory.md R50). -/
inductive Space where
  | iv
  | ob
  | ib
  | ov
  deriving DecidableEq, Repr

/-- The host's moves (R22). -/
inductive HostMove where
  | reset
  | encStart (vs : List Value)
  | encRead
  | decStart (bs : List Byte)
  | decRead
  deriving DecidableEq, Repr

/-- Who moves next: the host, with one move, or a unit, with one step (log 2). -/
inductive Turn where
  | host (m : HostMove)
  | unit (u : UnitId)
  deriving DecidableEq, Repr

/-- What a read returned (R22): the bytes of `ENC.read`, or the error fields and values of `DEC.read`. -/
inductive Reply where
  | encoded (bs : List Byte)
  | decoded (err : ErrCause) (expected available : Nat) (vs : List Value)
  deriving DecidableEq, Repr

/-- A buffer: its elements by offset, offsets strictly rising (`Memory.wf`). `Memory Byte` is a list of `Host.Cell`. -/
abbrev Memory (α : Type) : Type := List (Nat × α)

/-- What an offset that no entry lists reads as: no value (R35 leaves it unspecified; log 5). -/
def Memory.unlisted {α : Type} : Option α := none

/-- The encoder unit (R24). -/
structure Enc where
  /-- `ENC.PH` -/
  ph : Phase
  /-- `ENC.N`, the number of input values. -/
  n : Nat
  /-- `ENC.IV`, the input values. -/
  iv : Memory Value
  /-- `ENC.IDX`, the index of the next value. -/
  idx : Nat
  /-- `ENC.OB`, the output bytes. -/
  ob : Memory Byte
  /-- `ENC.OLEN`, the number of output bytes. -/
  olen : Nat
  deriving DecidableEq, Repr

/-- The decoder unit (R25). -/
structure Dec where
  /-- `DEC.PH` -/
  ph : Phase
  /-- `DEC.LEN`, the number of input bytes. -/
  len : Nat
  /-- `DEC.IB`, the input bytes. -/
  ib : Memory Byte
  /-- `DEC.CUR`, the cursor. -/
  cur : Nat
  /-- `DEC.OV`, the output values. -/
  ov : Memory Value
  /-- `DEC.OCNT`, the number of output values. -/
  ocnt : Nat
  /-- `DEC.ERR`, the error cause. -/
  err : ErrCause
  /-- `DEC.EXP`, the expected byte count of the record that could not be completed. -/
  exp : Nat
  /-- `DEC.AVL`, the bytes that remained from the cursor, tag included. -/
  avl : Nat
  deriving DecidableEq, Repr

/-- The machine: both units, and the model's own fields (the parameters of R7, log 1; the turns to be taken, log 2; what
reads have returned, newest first, log 4). -/
structure State where
  enc : Enc
  dec : Dec
  par : Params
  turns : List Turn
  received : List Reply
  deriving DecidableEq, Repr

/-- Why the machine stops. Each is something the spec says cannot happen from the reset state (60_exceptions.md R211,
93_implementation_defined.md U9), so stopping is safe: no behaviour of the hardware is contradicted. -/
inductive Fault where
  /-- A step of a unit whose phase is not RUN (R23, U9). Raised by a unit's fetch and by the record operations. Safe. -/
  | unitNotRunning (u : UnitId)
  /-- A MemRead beyond a buffer's valid part (R56, U9). Raised by a unit's fetch and by the record operations. Safe. -/
  | readOutOfBounds (b : Space)
  /-- A read of a valid offset that nothing has written (R35, log 5). Raised by a unit's fetch and by the host's reads;
  no state reached from reset has one. Safe. -/
  | readUnwritten (b : Space)
  /-- A write beyond a buffer's capacity (R27, R50: no such offset exists). Raised by the record operations; no state
  reached from reset has one. Safe. -/
  | writeBeyondCapacity (b : Space)
  deriving DecidableEq, Repr

/-- Why the machine has no meaning for a move. -/
inductive Refusal where
  /-- A record operation without a meaning. Raised by `exec`'s refused arms, of which there are none. Safe. -/
  | notModelled (mnemonic : String)
  /-- `start` of a unit in RUN: not a host move (R22, R235, U8). Raised by the host's turn. Safe. -/
  | startWhileRunning (u : UnitId)
  /-- `start` with more elements than NMAX or BMAX: not a host move, refused (R22, R27). Raised by the host's turn.
  Safe. -/
  | startTooLong (u : UnitId)
  /-- `read` of a unit that is not in DONE: not a host move (R22, R235, U8). Raised by the host's turn. Safe. -/
  | readNotDone (u : UnitId)
  deriving DecidableEq, Repr

/-- `ENC` after reset (R35). -/
def Enc.reset : Enc := { ph := .idle, n := 0, iv := [], idx := 0, ob := [], olen := 0 }

/-- `DEC` after reset (R35). -/
def Dec.reset : Dec :=
  { ph := .idle, len := 0, ib := [], cur := 0, ov := [], ocnt := 0, err := .noError, exp := 0, avl := 0 }

/-- The machine after reset (R35, R230): both units idle, buffer elements unspecified and so not listed (log 5). The
parameters are unbounded (log 1), no turn is placed (log 2) and nothing has been read (log 4): DESIGN CHOICE. -/
def State.reset : State :=
  { enc := Enc.reset, dec := Dec.reset, par := { nmax := none, bmax := none }, turns := [], received := [] }

end Sys2Proof.Machine
end

