-- ==== Sys2Proof/Machine/Flags.lean ====
section
/-! DEFINITION. The block's one flag, `DEC.ERR`, and the two counts that go with it (10_state.md R30, R31). Only the
error step sets it and only `DEC.start` and `reset` clear it; no record operation writes it. -/

namespace Sys2Proof.Machine

/-- The error fields as the error step sets them (60_exceptions.md R201, R203). -/
def Dec.setError (need rem : Nat) (d : Dec) : Dec :=
  { d with err := .truncatedRecord, exp := need, avl := rem }

/-- The error fields as `DEC.start` clears them (R22, R30). -/
def Dec.clearError (d : Dec) : Dec :=
  { d with err := .noError, exp := 0, avl := 0 }

end Sys2Proof.Machine
end

