-- ==== Sys2Proof/Machine/Operands.lean ====
section
/-! DEFINITION. The data-path primitives of 40_primitives.md: field extraction, sign reinterpretation, the byte
marshaller in both directions, the sign-extension pipeline, and the range tests that choose a format. All are integer
arithmetic as the rules write it; Laws/Operands.lean gives their bit-level forms. -/

namespace Sys2Proof.Machine

/-- `bits(v)[hi:lo]`, the field of the infinitely sign-extended pattern of `v` (00_scope.md R10). -/
def bits (v : Int) (hi lo : Nat) : Nat :=
  (v / ((2 ^ lo : Nat) : Int) % ((2 ^ (hi - lo + 1) : Nat) : Int)).toNat

/-- Sign reinterpretation of a byte (R110): `u < 128 ? u : u - 256`. -/
def sint8 (u : Byte) : Int :=
  if u.toNat < 128 then (u.toNat : Int) else (u.toNat : Int) - 256

/-- The low 8 bits of the two's-complement pattern of `v`, `v mod 256` (R111). -/
def u8 (v : Int) : Byte := BitVec.ofNat 8 (v % 256).toNat

/-- `byte_k(v) = bits(v)[8k+7 : 8k]` (R114). -/
def byteK (k : Nat) (v : Value) : Byte := BitVec.ofNat 8 (bits v.toInt (8 * k + 7) (8 * k))

/-- The payload of a medium record, least significant byte first (R115). -/
def split16 (v : Value) : List Byte := [byteK 0 v, byteK 1 v]

/-- The payload of a large record, least significant byte first (R115). -/
def split32 (v : Value) : List Byte := [byteK 0 v, byteK 1 v, byteK 2 v, byteK 3 v]

/-- Stages 1 and 2 of the pipeline (R116): the most significant payload byte `h`, at position `k`, reinterpreted as
signed and shifted into place. -/
def alignHigh (k : Nat) (h : Byte) : Int := sint8 h * ((256 ^ k : Nat) : Int)

/-- The value of a medium payload (R116 stage 3, R117). -/
def gather16 (p0 p1 : Byte) : Int := (p0.toNat : Int) + alignHigh 1 p1

/-- The value of a large payload (R116 stage 3, R117). -/
def gather32 (p0 p1 p2 p3 : Byte) : Int :=
  (p0.toNat : Int) + (p1.toNat : Int) * 256 + (p2.toNat : Int) * 65536 + alignHigh 3 p3

/-- The 32-bit word that carries an integer (R8): `v mod 2^32`. -/
def toValue (v : Int) : Value := BitVec.ofInt 32 v

/-- The first test of the encoder's policy (R90, R131). -/
def fitsSmall (v : Value) : Bool := smallMin ≤ v.toInt && v.toInt ≤ smallMax

/-- The second test of the encoder's policy (R90, R131). -/
def fitsMedium (v : Value) : Bool := mediumMin ≤ v.toInt && v.toInt ≤ mediumMax

end Sys2Proof.Machine
end

