-- ==== Sys2Proof/Machine/Ops.lean ====
section
/-! DEFINITION. Buffer access (00_scope.md 6.3 MemRead and MemWrite), the shared unit operations, and taking the one
exception, Truncated Record. -/

namespace Sys2Proof.Machine

/-! ### Buffers -/

/-- The one form of a buffer's list: offsets strictly rising. Every listed element differs from an unlisted one, which
has no value, so equal buffers are equal lists. -/
def Memory.wf {α : Type} : Memory α → Bool
  | [] => true
  | [_] => true
  | (a, _) :: (b, y) :: m => a < b && Memory.wf ((b, y) :: m)

/-- One element of a buffer, if something has written it. -/
def memGet {α : Type} (m : Memory α) (a : Nat) : Option α :=
  match m with
  | [] => Memory.unlisted
  | (b, y) :: m => if a = b then some y else memGet m a

/-- Store one element. -/
def memSet {α : Type} (m : Memory α) (a : Nat) (x : α) : Memory α :=
  match m with
  | [] => [(a, x)]
  | (b, y) :: m =>
    if a < b then (a, x) :: (b, y) :: m
    else if a = b then (a, x) :: m
    else (b, y) :: memSet m a x

/-- The `n` elements at offsets `a, a+1, ..`, if all of them have been written. -/
def memSlice {α : Type} (m : Memory α) (a n : Nat) : Option (List α) :=
  match n with
  | 0 => some []
  | n + 1 =>
    match memGet m a, memSlice m (a + 1) n with
    | some x, some xs => some (x :: xs)
    | _, _ => none

/-- `MemRead(B, a, n)`: defined only when `a + n` is at most the buffer's valid length (R56). -/
def memRead {α : Type} (b : Space) (m : Memory α) (valid a n : Nat) : Except Fault (List α) :=
  if a + n ≤ valid then
    match memSlice m a n with
    | some xs => .ok xs
    | none => .error (.readUnwritten b)
  else .error (.readOutOfBounds b)

/-- `MemRead(B, a, 1)`, the one element. -/
def memReadOne {α : Type} (b : Space) (m : Memory α) (valid a : Nat) : Except Fault α :=
  if a < valid then
    match memGet m a with
    | some x => .ok x
    | none => .error (.readUnwritten b)
  else .error (.readOutOfBounds b)

/-- `MemWrite(B, a, n, xs)`: the elements of `xs` at `a, a+1, ..`. -/
def memWrite {α : Type} (m : Memory α) (a : Nat) (xs : List α) : Memory α :=
  match xs with
  | [] => m
  | x :: xs => memWrite (memSet m a x) (a + 1) xs

/-- Whether a count is within a capacity; `none` is no bound (R7). -/
def within (cap : Option Nat) (k : Nat) : Bool :=
  match cap with
  | none => true
  | some c => k ≤ c

/-- The capacity of `ENC.OB`, `5 * NMAX` bytes (R7, R27). -/
def obCapacity (p : Params) : Option Nat :=
  match p.nmax with
  | none => none
  | some c => some (5 * c)

/-! ### What one step of a unit writes -/

/-- A value step's writes (41_encoder.md R136): append the record, count its bytes, move to the next value. -/
def Enc.emit (out : List Byte) (e : Enc) : Enc :=
  { e with ob := memWrite e.ob e.olen out, olen := e.olen + out.length, idx := e.idx + 1 }

/-- The encoder's finishing step (R136). -/
def Enc.finish (e : Enc) : Enc := { e with ph := .done }

/-- `ENC.start` (R22). -/
def Enc.start (vs : List Value) (e : Enc) : Enc :=
  { e with iv := memWrite e.iv 0 vs, n := vs.length, idx := 0, olen := 0, ph := .run }

/-- A record step's writes (42_decoder.md R157): append the value, count it, advance the cursor by the record's length. -/
def Dec.append (need : Nat) (v : Value) (d : Dec) : Dec :=
  { d with ov := memWrite d.ov d.ocnt [v], ocnt := d.ocnt + 1, cur := d.cur + need }

/-- The decoder's finishing step (R163, R158). -/
def Dec.finish (d : Dec) : Dec := { d with ph := .done }

/-- `raise TruncatedRecord(need, rem)`, the error step (60_exceptions.md R203): the error fields are set, the partial
results discarded, the transaction over; the cursor stays at the offending tag and both buffers as they are. -/
def Dec.raiseTruncated (need rem : Nat) (d : Dec) : Dec :=
  { d.setError need rem with ocnt := 0, ph := .done }

/-- `DEC.start` (R22). It is also, with `reset`, the way out of the error state: the block has no return instruction, and
a new start clears the error and begins at offset 0 of the new input (60_exceptions.md R209). -/
def Dec.start (bs : List Byte) (d : Dec) : Dec :=
  { d.clearError with ib := memWrite d.ib 0 bs, len := bs.length, cur := 0, ocnt := 0, ph := .run }

/-! ### The same on the whole machine -/

/-- Replace the encoder unit. -/
def State.withEnc (s : State) (e : Enc) : State := { s with enc := e }

/-- Replace the decoder unit. -/
def State.withDec (s : State) (d : Dec) : State := { s with dec := d }

/-- Replace the turns to be taken. -/
def State.withTurns (s : State) (ts : List Turn) : State := { s with turns := ts }

/-- The host receives what a read returned. -/
def State.receive (s : State) (r : Reply) : State := { s with received := r :: s.received }

/-- Taking the exception Truncated Record (R203). Control goes nowhere: no handler, no vector; the unit rests in DONE
until the next `DEC.start` or `reset` (R209). -/
def takeTruncated (need rem : Nat) (s : State) : State := s.withDec (s.dec.raiseTruncated need rem)

/-- A value step of `ENC` that emits `out` (R136), enabled in RUN while a value is left. The write always fits in a
state reached from reset (R27); where it does not there is no such offset. -/
def encRecord (out : List Byte) (s : State) : Host.Outcome State Fault Refusal :=
  if s.enc.ph ≠ .run then .fault (.unitNotRunning .enc)
  else if ¬ s.enc.idx < s.enc.n then .fault (.readOutOfBounds .iv)
  else if within (obCapacity s.par) (s.enc.olen + out.length) = false then .fault (.writeBeyondCapacity .ob)
  else .next (s.withEnc (s.enc.emit out))

/-- A record step of `DEC` on a record of length `need` that holds `v` (R163): the bound check first, then the framer's
length check (R152, R206), then the append and the cursor advance (R157). -/
def decRecord (need : Nat) (v : Value) (s : State) : Host.Outcome State Fault Refusal :=
  if s.dec.ph ≠ .run then .fault (.unitNotRunning .dec)
  else if ¬ s.dec.cur < s.dec.len then .fault (.readOutOfBounds .ib)
  else if s.dec.len - s.dec.cur < need then .next (takeTruncated need (s.dec.len - s.dec.cur) s)
  else if within s.par.bmax (s.dec.ocnt + 1) = false then .fault (.writeBeyondCapacity .ov)
  else .next (s.withDec (s.dec.append need v))

end Sys2Proof.Machine
end

