-- ==== Sys2Proof/Machine/Decoder.lean ====
section
/-! DEFINITION. The decoder's record operations (42_decoder.md section 3). None writes a flag. -/

namespace Sys2Proof.Machine

/-- `DEC.SMALL` (R154): the byte itself, read as signed; cursor + 1. Never truncated: one byte remains whenever there
is a tag candidate (R152). -/
def execDecSmall (val8 : Byte) (s : State) : Host.Outcome State Fault Refusal :=
  decRecord lenSmall (toValue (sint8 val8)) s

/-- `DEC.MEDIUM` (R155): `gather16` of the payload; cursor + 3; `TruncatedRecord(3, rem)` when fewer than 3 bytes
remain. -/
def execDecMedium (p0 p1 : Byte) (s : State) : Host.Outcome State Fault Refusal :=
  decRecord lenMedium (toValue (gather16 p0 p1)) s

/-- `DEC.LARGE` (R156): `gather32` of the payload; cursor + 5; `TruncatedRecord(5, rem)` when fewer than 5 bytes
remain. -/
def execDecLarge (p0 p1 p2 p3 : Byte) (s : State) : Host.Outcome State Fault Refusal :=
  decRecord lenLarge (toValue (gather32 p0 p1 p2 p3)) s

end Sys2Proof.Machine
end

