-- ==== Sys2Proof/Machine/Encoder.lean ====
section
/-! DEFINITION. The encoder's record operations (41_encoder.md section 2). None writes a flag and none raises an
exception. -/

namespace Sys2Proof.Machine

/-- `ENC.SMALL` (R132): emit `[u8(v)]`. -/
def execEncSmall (v : Value) (s : State) : Host.Outcome State Fault Refusal :=
  encRecord [u8 v.toInt] s

/-- `ENC.MEDIUM` (R133): emit `[0x80, byte_0(v), byte_1(v)]`. -/
def execEncMedium (v : Value) (s : State) : Host.Outcome State Fault Refusal :=
  encRecord (tagMedium :: split16 v) s

/-- `ENC.LARGE` (R134): emit `[0x81, byte_0(v), byte_1(v), byte_2(v), byte_3(v)]`. -/
def execEncLarge (v : Value) (s : State) : Host.Outcome State Fault Refusal :=
  encRecord (tagLarge :: split32 v) s

end Sys2Proof.Machine
end

