-- ==== Sys2Proof/Machine/Dispatch.lean ====
section
/-! DEFINITION. The meaning of each record operation, one arm per row of spec/opcode_table.json. -/

namespace Sys2Proof.Machine

def exec (i : Instr) (s : State) : Host.Outcome State Fault Refusal :=
  match i with
  | .decSmall val8 => Sys2Proof.Machine.execDecSmall val8 s
  | .decMedium p0 p1 => Sys2Proof.Machine.execDecMedium p0 p1 s
  | .decLarge p0 p1 p2 p3 => Sys2Proof.Machine.execDecLarge p0 p1 p2 p3 s
  | .encSmall v => Sys2Proof.Machine.execEncSmall v s
  | .encMedium v => Sys2Proof.Machine.execEncMedium v s
  | .encLarge v => Sys2Proof.Machine.execEncLarge v s

end Sys2Proof.Machine
end

