-- ==== Sys2Proof/WellFormed.lean ====
section
/-! DEFINITION. Which operands a record operation is selected with. -/

namespace Sys2Proof

/-- The selection condition of each row. `DEC.SMALL` is never selected for a tag byte (R154, R92); an encoder operation
is selected for its own domain only, the three domains being taken in order (R90, R132, R133, R134). -/
def Instr.wf : Instr → Bool
  | .decSmall val8 => val8 != tagMedium && val8 != tagLarge
  | .decMedium _ _ => true
  | .decLarge _ _ _ _ => true
  | .encSmall v => Machine.fitsSmall v
  | .encMedium v => !Machine.fitsSmall v && Machine.fitsMedium v
  | .encLarge v => !Machine.fitsSmall v && !Machine.fitsMedium v

end Sys2Proof
end

