-- ==== Sys2Proof/Decode.lean ====
section
/-! DEFINITION. The framer's classification and the record decoder, the encoder unit's selection, the bytes of each
record operation, and the words of spec/opcode_table.json. -/

namespace Sys2Proof

open Machine

/-- The length of a record from its first byte (30_encoding.md R84). -/
def recLen (t : Byte) : Nat :=
  if t = tagLarge then lenLarge else if t = tagMedium then lenMedium else lenSmall

/-- What the decoder makes of a byte sequence that starts at a record. -/
inductive DecodeOutcome where
  /-- A whole record and the bytes after it. -/
  | record (i : Instr) (rest : List Byte)
  /-- No byte to read: decoding stops with no error (R158). -/
  | endOfBuffer
  /-- The buffer ends inside a medium or large record (R152, R200). -/
  | truncated (expected available : Nat)
  deriving DecidableEq, Repr

/-- One record off the front of a byte sequence (R84, R85, R152). Total: no first byte and no payload byte is illegal
(R93), and no canonicality is checked. -/
def decode : List Byte → DecodeOutcome
  | [] => .endOfBuffer
  | t :: rest =>
    if t = tagLarge then
      match rest with
      | p0 :: p1 :: p2 :: p3 :: more => .record (.decLarge p0 p1 p2 p3) more
      | _ => .truncated lenLarge (rest.length + 1)
    else if t = tagMedium then
      match rest with
      | p0 :: p1 :: more => .record (.decMedium p0 p1) more
      | _ => .truncated lenMedium (rest.length + 1)
    else .record (.decSmall t) rest

/-- The encoder's choice of record operation for a value, "first matching rule wins" (R90, R131). -/
def selectRecord (v : Value) : Instr :=
  if fitsSmall v then .encSmall v else if fitsMedium v then .encMedium v else .encLarge v

/-- The bytes of a record operation: for a decoder row the record it reads, for an encoder row the record it emits
(formats S, M and L, R81, R82, R83). -/
def encode : Instr → List Byte
  | .decSmall val8 => [val8]
  | .decMedium p0 p1 => [tagMedium, p0, p1]
  | .decLarge p0 p1 p2 p3 => [tagLarge, p0, p1, p2, p3]
  | .encSmall v => [u8 v.toInt]
  | .encMedium v => tagMedium :: split16 v
  | .encLarge v => tagLarge :: split32 v

/-! ### The words of spec/opcode_table.json (notes/assumptions/11.md) -/

/-- Byte `k` of a number, counting from the least significant. -/
def natByte (k w : Nat) : Byte := BitVec.ofNat 8 (w / 256 ^ k)

/-- The low `nbits` bits of a word laid out as a record of the longest kind, bit 0 in the first byte. -/
def wordBytes (nbits w : Nat) : List Byte :=
  let u := w % 2 ^ nbits
  [natByte 0 u, natByte 1 u, natByte 2 u, natByte 3 u, natByte 4 u]

/-- DESIGN CHOICE (log 11). An ENC row has no opcode (R96); the table numbers the record it emits with the tag in the
top byte. Such a word stands for the row, with the value its payload spells when the row is selected for that value, and
otherwise with the row's least positive value. -/
def encTableWord (nbits w : Nat) : Option Instr :=
  if nbits = 24 ∧ natByte 2 w = tagMedium then
    let i := Instr.encMedium (toValue (gather16 (natByte 1 w) (natByte 0 w)))
    some (if i.wf then i else .encMedium 128#32)
  else if nbits = 40 ∧ natByte 4 w = tagLarge then
    let i := Instr.encLarge (toValue (gather32 (natByte 3 w) (natByte 2 w) (natByte 1 w) (natByte 0 w)))
    some (if i.wf then i else .encLarge 32768#32)
  else none

/-- The instruction read from a table word: an ENC row's word as `encTableWord` says, any other word as the bytes the
decoder unit would meet (log 11). -/
def decodeTableWord (nbits w : Nat) : Option Instr :=
  match encTableWord nbits w with
  | some i => some i
  | none =>
    match decode (wordBytes nbits w) with
    | .record i _ => some i
    | _ => none

end Sys2Proof
end

