-- ==== Sys2Proof/Machine/Fetch.lean ====
section
/-! DEFINITION. What a unit does next: the encoder's selection of a record operation for the value at `ENC.IDX`
(41_encoder.md R136), the decoder's framer at `DEC.CUR` (42_decoder.md R151, R152, R163), who moves next, and where a
table word is placed. -/

namespace Sys2Proof.Machine

/-- The step a unit has before it. -/
inductive Fetched where
  /-- The finishing step: the input is used up (R136, R163). -/
  | finish
  /-- A record operation. -/
  | record (i : Instr)
  /-- The error step: the record needs `need` bytes and `rem` remain (R152). -/
  | short (need rem : Nat)
  /-- No step: something the spec says cannot happen (U9). -/
  | stop (f : Fault)
  deriving DecidableEq, Repr

/-- The encoder (R136): in RUN, finish at the end of the input, else read one value and select its operation. -/
def fetchEnc (s : State) : Fetched :=
  if s.enc.ph ≠ .run then .stop (.unitNotRunning .enc)
  else if s.enc.idx = s.enc.n then .finish
  else
    match memReadOne .iv s.enc.iv s.enc.n s.enc.idx with
    | .ok v => .record (selectRecord v)
    | .error f => .stop f

/-- The payload of a record whose tag candidate is `t`, read only once the whole record is known to fit (R56, R160). A
whole record always decodes (`fetchPayload_cases`), so the last two arms are not reached. -/
def fetchPayload (t : Byte) (s : State) : Fetched :=
  match memRead .ib s.dec.ib s.dec.len (s.dec.cur + 1) (recLen t - 1) with
  | .ok payload =>
    match decode (t :: payload) with
    | .record i _ => .record i
    | .endOfBuffer => .stop (.readOutOfBounds .ib)
    | .truncated _ _ => .stop (.readOutOfBounds .ib)
  | .error f => .stop f

/-- The decoder (R163): in RUN, finish at the end of the buffer (R158), else read the tag candidate (R151), check the
length (R152) and read the payload. The order is R206's. -/
def fetchDec (s : State) : Fetched :=
  if s.dec.ph ≠ .run then .stop (.unitNotRunning .dec)
  else if s.dec.cur = s.dec.len then .finish
  else
    match memReadOne .ib s.dec.ib s.dec.len s.dec.cur with
    | .ok t =>
      if s.dec.len - s.dec.cur < recLen t then .short (recLen t) (s.dec.len - s.dec.cur)
      else fetchPayload t s
    | .error f => .stop f

/-- The step a unit has before it. -/
def fetch (u : UnitId) (s : State) : Fetched :=
  match u with
  | .enc => fetchEnc s
  | .dec => fetchDec s

/-- A unit's finishing step. -/
def finishUnit (u : UnitId) (s : State) : State :=
  match u with
  | .enc => s.withEnc s.enc.finish
  | .dec => s.withDec s.dec.finish

/-- Who moves next, and the machine without that turn: the first turn placed; with none placed, a unit in RUN, `ENC`
before `DEC` (log 3); with neither, nobody. -/
def nextTurn (s : State) : Option (Turn × State) :=
  match s.turns with
  | t :: ts => some (t, s.withTurns ts)
  | [] =>
    if s.enc.ph = .run then some (.unit .enc, s)
    else if s.dec.ph = .run then some (.unit .dec, s)
    else none

/-- The value an encoder operation encodes. -/
def encOperand (i : Instr) : Option Value :=
  match i with
  | .encSmall v => some v
  | .encMedium v => some v
  | .encLarge v => some v
  | .decSmall _ => none
  | .decMedium _ _ => none
  | .decLarge _ _ _ _ => none

/-- A table word placed where the next step fetches it (log 11): the unit whose row it is has been started with it, and
the next turn is that unit's. -/
def placeWord (nbits w : Nat) (s : State) : State :=
  match (encTableWord nbits w).bind encOperand with
  | some v => (s.withEnc (s.enc.start [v])).withTurns (.unit .enc :: s.turns)
  | none => (s.withDec (s.dec.start (wordBytes nbits w))).withTurns (.unit .dec :: s.turns)

end Sys2Proof.Machine
end

