-- ==== Sys2Proof/Machine/HostMoves.lean ====
section
/-! DEFINITION. The host's moves (10_state.md R22). A move that R22 does not allow is not in the model: it is refused by
name (R235, 93_implementation_defined.md U8, log 6). -/

namespace Sys2Proof.Machine

/-- `reset` (R35, R230, R232): every register of both units takes its reset value, whatever the units were doing, and
buffer elements are unspecified. The parameters are the build's, and the host keeps its own turns and replies. -/
def hostReset (s : State) : Host.Outcome State Fault Refusal :=
  .next { s with enc := Enc.reset, dec := Dec.reset }

/-- `ENC.start(vs)`, allowed in IDLE and DONE for at most NMAX values (R22). -/
def hostEncStart (vs : List Value) (s : State) : Host.Outcome State Fault Refusal :=
  if s.enc.ph = .run then .refused (.startWhileRunning .enc)
  else if within s.par.nmax vs.length = false then .refused (.startTooLong .enc)
  else .next (s.withEnc (s.enc.start vs))

/-- `ENC.read`, allowed in DONE: returns `ENC.OB[0 .. OLEN-1]` and changes nothing of the block (R22). -/
def hostEncRead (s : State) : Host.Outcome State Fault Refusal :=
  if s.enc.ph ≠ .done then .refused (.readNotDone .enc)
  else
    match memRead .ob s.enc.ob s.enc.olen 0 s.enc.olen with
    | .ok bs => .next (s.receive (.encoded bs))
    | .error f => .fault f

/-- `DEC.start(bs)`, allowed in IDLE and DONE for at most BMAX bytes (R22). -/
def hostDecStart (bs : List Byte) (s : State) : Host.Outcome State Fault Refusal :=
  if s.dec.ph = .run then .refused (.startWhileRunning .dec)
  else if within s.par.bmax bs.length = false then .refused (.startTooLong .dec)
  else .next (s.withDec (s.dec.start bs))

/-- `DEC.read`, allowed in DONE: returns `ERR`, `EXP`, `AVL` and `DEC.OV[0 .. OCNT-1]` and changes nothing of the block
(R22). -/
def hostDecRead (s : State) : Host.Outcome State Fault Refusal :=
  if s.dec.ph ≠ .done then .refused (.readNotDone .dec)
  else
    match memRead .ov s.dec.ov s.dec.ocnt 0 s.dec.ocnt with
    | .ok vs => .next (s.receive (.decoded s.dec.err s.dec.exp s.dec.avl vs))
    | .error f => .fault f

/-- One move of the host (R22). -/
def hostMove (m : HostMove) (s : State) : Host.Outcome State Fault Refusal :=
  match m with
  | .reset => hostReset s
  | .encStart vs => hostEncStart vs s
  | .encRead => hostEncRead s
  | .decStart bs => hostDecStart bs s
  | .decRead => hostDecRead s

end Sys2Proof.Machine
end

