-- ==== Sys2Proof/Machine/Step.lean ====
section
/-! DEFINITION. One step of the machine: one move of the host, or one step of a unit (10_state.md R20, R22, R23). -/

namespace Sys2Proof.Machine

/-- One step of a unit (41_encoder.md R136, 42_decoder.md R163): the finishing step, the error step, or a record
operation. -/
def unitStep (u : UnitId) (s : State) : Host.Outcome State Fault Refusal :=
  match fetch u s with
  | .finish => .next (finishUnit u s)
  | .record i => exec i s
  | .short need rem => .next (takeTruncated need rem s)
  | .stop f => .fault f

/-- One step of the machine. With nobody to move it stays as it is: a unit in IDLE or DONE takes no steps (R23, R219),
and the block waits for the host. -/
def step (s : State) : Host.Outcome State Fault Refusal :=
  match nextTurn s with
  | none => .next s
  | some (.host m, s') => hostMove m s'
  | some (.unit u, s') => unitStep u s'

/-- The machine with a table word where its next step fetches (log 11). -/
def State.withFetchWord (s : State) (nbits w : Nat) : State := placeWord nbits w s

end Sys2Proof.Machine
end

