-- ==== Sys2Proof/Machine/Codec.lean ====
section
/-! DEFINITION. The closed-form functions of the two transactions, the source's own view (00_scope.md section 6.4):
`enc1` and `encode` (41_encoder.md R135, R137), `decode` (42_decoder.md R164). They use no state and no instruction;
that the units compute them is proved, not assumed. -/

namespace Sys2Proof.Machine

/-- `enc1`, the record of one value (R135). -/
def enc1 (v : Value) : List Byte :=
  if -126 ≤ v.toInt ∧ v.toInt ≤ 127 then [u8 v.toInt]
  else if -32768 ≤ v.toInt ∧ v.toInt ≤ 32767 then [0x80#8, byteK 0 v, byteK 1 v]
  else [0x81#8, byteK 0 v, byteK 1 v, byteK 2 v, byteK 3 v]

/-- `encode`, the records of a value sequence in input order (R137). -/
def encodeSeq : List Value → List Byte
  | [] => []
  | v :: vs => enc1 v ++ encodeSeq vs

/-- The result of `decode` (R164). -/
inductive DecodeResult where
  | ok (vs : List Value)
  | err (expected available : Nat)
  deriving DecidableEq, Repr

/-- Put a value before the values of a result; an error discards it (R164, R205). -/
def consResult (v : Value) (r : DecodeResult) : DecodeResult :=
  match r with
  | .ok vs => .ok (v :: vs)
  | .err e a => .err e a

/-- `decode`, a whole byte buffer (R164). -/
def decodeBuf : List Byte → DecodeResult
  | [] => .ok []
  | t :: rest =>
    if t = 0x81#8 then
      match rest with
      | p0 :: p1 :: p2 :: p3 :: more => consResult (toValue (gather32 p0 p1 p2 p3)) (decodeBuf more)
      | _ => .err 5 (rest.length + 1)
    else if t = 0x80#8 then
      match rest with
      | p0 :: p1 :: more => consResult (toValue (gather16 p0 p1)) (decodeBuf more)
      | _ => .err 3 (rest.length + 1)
    else consResult (toValue (sint8 t)) (decodeBuf rest)

end Sys2Proof.Machine
end

