-- ==== Sys2Proof/Safety.lean ====
section
/-! DEFINITION. What counts as a good state (10_state.md R37), a run of a unit and its outcome (70_reset_and_hazards.md
R237, R238). -/

namespace Sys2Proof.Machine

/-- Every buffer is in its one form. -/
def State.canonical (s : State) : Bool :=
  Memory.wf s.enc.iv && Memory.wf s.enc.ob && Memory.wf s.dec.ib && Memory.wf s.dec.ov

/-- R37 for `ENC`: the positions are in range, the valid input can be read, and the output so far is the records of the
values so far. -/
def EncInv (p : Params) (e : Enc) : Prop :=
  e.idx ≤ e.n ∧ within p.nmax e.n = true ∧ e.idx ≤ e.olen ∧ e.olen ≤ 5 * e.idx ∧ (e.ph = .done → e.idx = e.n) ∧
  ∃ vs, memSlice e.iv 0 e.n = some vs ∧ memSlice e.ob 0 e.olen = some (encodeSeq (vs.take e.idx))

/-- R37 for `DEC` while `ERR = 0`, its valid input being `bs`. -/
def DecInvOk (d : Dec) (bs : List Byte) : Prop :=
  d.cur ≤ d.len ∧ d.ocnt ≤ d.cur ∧ d.cur ≤ 5 * d.ocnt ∧ d.exp = 0 ∧ d.avl = 0 ∧ (d.ph = .done → d.cur = d.len) ∧
  ∃ vs, memSlice d.ov 0 d.ocnt = some vs ∧ decodeBuf (bs.take d.cur) = .ok vs

/-- R37 for `DEC` when `ERR = 1`, its valid input being `bs`. -/
def DecInvErr (d : Dec) (bs : List Byte) : Prop :=
  d.ph = .done ∧ d.ocnt = 0 ∧ d.cur < d.len ∧ d.avl = d.len - d.cur ∧
  ((bs[d.cur]? = some 0x80#8 ∧ d.exp = 3 ∧ 1 ≤ d.avl ∧ d.avl ≤ 2) ∨
   (bs[d.cur]? = some 0x81#8 ∧ d.exp = 5 ∧ 1 ≤ d.avl ∧ d.avl ≤ 4)) ∧
  ∃ vs, decodeBuf (bs.take d.cur) = .ok vs

/-- R37 for `DEC`. -/
def DecInv (p : Params) (d : Dec) : Prop :=
  within p.bmax d.len = true ∧
  ∃ bs, memSlice d.ib 0 d.len = some bs ∧
    match d.err with
    | .noError => DecInvOk d bs
    | .truncatedRecord => DecInvErr d bs

/-- The invariants of R37, with every buffer in its one form. -/
def State.Inv (s : State) : Prop :=
  s.canonical = true ∧ EncInv s.par s.enc ∧ DecInv s.par s.dec

/-- A decoder row. -/
def isDec (i : Instr) : Bool :=
  match i with
  | .decSmall _ => true
  | .decMedium _ _ => true
  | .decLarge _ _ _ _ => true
  | .encSmall _ => false
  | .encMedium _ => false
  | .encLarge _ => false

/-- The value a record operation carries: what its bytes decode to (30_encoding.md R86 to R88), or the operand it
encodes. -/
def carried (i : Instr) : Value :=
  match i with
  | .decSmall val8 => toValue (sint8 val8)
  | .decMedium p0 p1 => toValue (gather16 p0 p1)
  | .decLarge p0 p1 p2 p3 => toValue (gather32 p0 p1 p2 p3)
  | .encSmall v => v
  | .encMedium v => v
  | .encLarge v => v

/-- The phase of a unit. -/
def State.phase (s : State) (u : UnitId) : Phase :=
  match u with
  | .enc => s.enc.ph
  | .dec => s.dec.ph

/-- `k` steps of one unit. -/
def runUnit (u : UnitId) (k : Nat) (s : State) : Host.Outcome State Fault Refusal :=
  match k with
  | 0 => .next s
  | k + 1 =>
    match unitStep u s with
    | .next s' => runUnit u k s'
    | .fault f => .fault f
    | .refused r => .refused r

/-- `k` steps of the machine. -/
def runSteps (k : Nat) (s : State) : Host.Outcome State Fault Refusal :=
  match k with
  | 0 => .next s
  | k + 1 =>
    match step s with
    | .next s' => runSteps k s'
    | .fault f => .fault f
    | .refused r => .refused r

/-- The outcome of an ENCODE run, the bytes `ENC.OB[0 .. OLEN-1]`, once the phase is DONE (R238). -/
def encOutcome (s : State) : Option (List Byte) :=
  if s.enc.ph = .done then memSlice s.enc.ob 0 s.enc.olen else none

/-- The outcome of a DECODE run once the phase is DONE (R238): the values, or the error's two counts. -/
def decOutcome (s : State) : Option DecodeResult :=
  if s.dec.ph = .done then
    match s.dec.err with
    | .noError => (memSlice s.dec.ov 0 s.dec.ocnt).map DecodeResult.ok
    | .truncatedRecord => some (.err s.dec.exp s.dec.avl)
  else none

end Sys2Proof.Machine
end

