-- ==== Sys2Proof/Certificates/Slice0/Obligations.lean ====
section
/-! DEFINITION. The statements about the CINT32 model, for the provers. -/

open Sys2Proof Sys2Proof.Machine

/-! ### Data-path primitives (40_primitives.md) -/

/-- R112: `u8` and `sint8` are inverse, the sign is bit 7, and only the two tags fall outside the small domain. -/
def Obligations.SignReinterpretationInvertsLowByte : Prop :=
  (∀ u : Byte, -128 ≤ sint8 u ∧ sint8 u ≤ 127 ∧ u8 (sint8 u) = u ∧ (sint8 u < 0 ↔ u.getLsbD 7 = true) ∧
    ((-126 ≤ sint8 u ∧ sint8 u ≤ 127) ↔ (u ≠ 0x80#8 ∧ u ≠ 0x81#8))) ∧
  ∀ v : Int, -128 ≤ v → v ≤ 127 → sint8 (u8 v) = v

/-- R117: the exact ranges of the two gathers, their extremes, and their words. -/
def Obligations.GatheredPayloadRangesAndWords : Prop :=
  (∀ p0 p1 : Byte, gather16 p0 p1 = p0.toNat + 256 * sint8 p1 ∧ -32768 ≤ gather16 p0 p1 ∧ gather16 p0 p1 ≤ 32767 ∧
    toValue (gather16 p0 p1) = (p1 ++ p0).signExtend 32 ∧ (toValue (gather16 p0 p1)).toInt = gather16 p0 p1) ∧
  (∀ v : Int, -32768 ≤ v → v ≤ 32767 → ∃ p0 p1, gather16 p0 p1 = v) ∧
  (∀ p0 p1 p2 p3 : Byte,
    gather32 p0 p1 p2 p3 = p0.toNat + 256 * p1.toNat + 65536 * p2.toNat + 16777216 * sint8 p3 ∧
    -2147483648 ≤ gather32 p0 p1 p2 p3 ∧ gather32 p0 p1 p2 p3 ≤ 2147483647 ∧
    toValue (gather32 p0 p1 p2 p3) = p3 ++ p2 ++ p1 ++ p0 ∧
    (toValue (gather32 p0 p1 p2 p3)).toInt = gather32 p0 p1 p2 p3 ∧
    -2147483648 ≤ alignHigh 3 p3 ∧ alignHigh 3 p3 ≤ 127 * 16777216) ∧
  (∀ v : Int, -2147483648 ≤ v → v ≤ 2147483647 → ∃ p0 p1 p2 p3, gather32 p0 p1 p2 p3 = v) ∧
  gather16 0x00#8 0x80#8 = -32768 ∧ gather16 0xFF#8 0x7F#8 = 32767 ∧
  gather32 0x00#8 0x00#8 0x00#8 0x80#8 = -2147483648 ∧ gather32 0xFF#8 0xFF#8 0xFF#8 0x7F#8 = 2147483647

/-- R118: stage 3 of the pipeline may be built with add or with bitwise OR. -/
def Obligations.CombineByAddOrByOr : Prop :=
  (∀ p0 p1 : Byte,
    p1.signExtend 32 <<< 8 ||| p0.setWidth 32 = p1.signExtend 32 <<< 8 + p0.setWidth 32 ∧
    p1.signExtend 32 <<< 8 + p0.setWidth 32 = toValue (gather16 p0 p1)) ∧
  ∀ p0 p1 p2 p3 : Byte,
    p3.signExtend 32 <<< 24 ||| p2.setWidth 32 <<< 16 ||| p1.setWidth 32 <<< 8 ||| p0.setWidth 32 =
      p3.signExtend 32 <<< 24 + p2.setWidth 32 <<< 16 + p1.setWidth 32 <<< 8 + p0.setWidth 32 ∧
    p3.signExtend 32 <<< 24 + p2.setWidth 32 <<< 16 + p1.setWidth 32 <<< 8 + p0.setWidth 32 =
      toValue (gather32 p0 p1 p2 p3)

/-- R119: splitting and gathering are inverse, both ways, for both payload lengths; so `gather16` is a bijection from
pairs of bytes onto [-32768, 32767] and `gather32` one from 4-tuples onto the 32-bit values. -/
def Obligations.MarshallerSplitGatherInverse : Prop :=
  (∀ v p0 p1, -32768 ≤ BitVec.toInt v → v.toInt ≤ 32767 → split16 v = [p0, p1] → gather16 p0 p1 = v.toInt) ∧
  (∀ v p0 p1 p2 p3, split32 v = [p0, p1, p2, p3] → gather32 p0 p1 p2 p3 = v.toInt) ∧
  (∀ p0 p1, -32768 ≤ gather16 p0 p1 ∧ gather16 p0 p1 ≤ 32767 ∧ split16 (toValue (gather16 p0 p1)) = [p0, p1]) ∧
  ∀ p0 p1 p2 p3, split32 (toValue (gather32 p0 p1 p2 p3)) = [p0, p1, p2, p3]

/-- R121: the range tests on bits of the word choose the same format as the integer comparisons, and the boundary
cases. -/
def Obligations.RangeTestsOnBits : Prop :=
  (∀ v : Value,
    ((-128 ≤ v.toInt ∧ v.toInt ≤ 127) ↔ (v.extractLsb' 7 25 = 0#25 ∨ v.extractLsb' 7 25 = BitVec.allOnes 25)) ∧
    (fitsSmall v = true ↔ (v.extractLsb' 7 25 = 0#25 ∨ v.extractLsb' 7 25 = BitVec.allOnes 25) ∧
      v.setWidth 8 ≠ 0x80#8 ∧ v.setWidth 8 ≠ 0x81#8) ∧
    (fitsMedium v = true ↔ (v.extractLsb' 15 17 = 0#17 ∨ v.extractLsb' 15 17 = BitVec.allOnes 17))) ∧
  (∀ x ∈ ([-126, 127] : List Int), selectRecord (toValue x) = .encSmall (toValue x)) ∧
  (∀ x ∈ ([-127, -128, -129, 128, 32767, -32768] : List Int), selectRecord (toValue x) = .encMedium (toValue x)) ∧
  ∀ x ∈ ([32768, -32769] : List Int), selectRecord (toValue x) = .encLarge (toValue x)

/-! ### Encodings (30_encoding.md) -/

/-- R90: the encoder's three cases partition the values. -/
def Obligations.EncoderFormatChoice : Prop :=
  ∀ v : Value,
    (selectRecord v = .encSmall v ↔ -126 ≤ v.toInt ∧ v.toInt ≤ 127) ∧
    (selectRecord v = .encMedium v ↔ (-32768 ≤ v.toInt ∧ v.toInt ≤ -127) ∨ (128 ≤ v.toInt ∧ v.toInt ≤ 32767)) ∧
    (selectRecord v = .encLarge v ↔ v.toInt ≤ -32769 ∨ 32768 ≤ v.toInt) ∧
    (selectRecord v).wf = true ∧ carried (selectRecord v) = v ∧ isDec (selectRecord v) = false

/-- R135: the record of a value, written out by range, is the bytes of the operation selected for it; its length is 1, 3
or 5 by the same ranges, and its first byte is a tag exactly for the medium and the large values. -/
def Obligations.EmittedRecordFirstByteAndLength : Prop :=
  ∀ v : Value,
    enc1 v = encode (selectRecord v) ∧
    encode (selectRecord v) =
      (if -126 ≤ v.toInt ∧ v.toInt ≤ 127 then [v.extractLsb' 0 8]
      else if -32768 ≤ v.toInt ∧ v.toInt ≤ 32767 then [0x80#8, v.extractLsb' 0 8, v.extractLsb' 8 8]
      else [0x81#8, v.extractLsb' 0 8, v.extractLsb' 8 8, v.extractLsb' 16 8, v.extractLsb' 24 8]) ∧
    ∃ t payload, encode (selectRecord v) = t :: payload ∧ (encode (selectRecord v)).length = recLen t ∧
      (t = 0x80#8 ↔ (-32768 ≤ v.toInt ∧ v.toInt ≤ -127) ∨ (128 ≤ v.toInt ∧ v.toInt ≤ 32767)) ∧
      (t = 0x81#8 ↔ v.toInt ≤ -32769 ∨ 32768 ≤ v.toInt)

/-- Decode and encode agree: the bytes of every well-formed record operation, whatever follows them, are read as one
record that carries the same value; a decoder operation is read back as itself, and an encoder operation is the one
selected for its value. -/
def Obligations.DecodeOfEncodedRecord : Prop :=
  ∀ (i : Instr) (rest : List Byte), i.wf = true →
    (isDec i = true → decode (encode i ++ rest) = .record i rest) ∧
    (isDec i = false → selectRecord (carried i) = i ∧
      ∃ j, isDec j = true ∧ decode (encode i ++ rest) = .record j rest ∧ carried j = carried i ∧ encode j = encode i)

/-- The other direction (R84, R85, R93): every record read is a well-formed decoder operation whose bytes are exactly
those consumed, and any first byte that is not cut short is read. -/
def Obligations.EncodeOfDecodedRecord : Prop :=
  (∀ bs i rest, decode bs = .record i rest → isDec i = true ∧ i.wf = true ∧ encode i ++ rest = bs) ∧
  ∀ t payload rest, payload.length = recLen t - 1 → ∃ i, decode (t :: payload ++ rest) = .record i rest

/-- R152 on bytes: what is not a whole record is the end of the buffer or one of the truncations. -/
def Obligations.DecodeRejectionsAreTruncations : Prop :=
  ∀ bs : List Byte,
    (decode bs = .endOfBuffer ↔ bs = []) ∧
    ∀ e a, decode bs = .truncated e a ↔
      a = bs.length ∧ ((bs[0]? = some 0x80#8 ∧ e = 3 ∧ a ≤ 2) ∨ (bs[0]? = some 0x81#8 ∧ e = 5 ∧ a ≤ 4))

/-- Words written out from the formats of R81, R82, R83: each family's bytes are read as the instruction they stand
for. -/
def Obligations.WrittenOutWordsDecode : Prop :=
  decodeTableWord 8 0x9C = some (.decSmall 0x9C#8) ∧
  decode [0x80#8, 0x18#8, 0xFC#8] = .record (.decMedium 0x18#8 0xFC#8) [] ∧
  decode [0x81#8, 0x60#8, 0x79#8, 0xFE#8, 0xFF#8, 0x05#8] =
    .record (.decLarge 0x60#8 0x79#8 0xFE#8 0xFF#8) [0x05#8] ∧
  selectRecord (toValue (-100)) = .encSmall (toValue (-100)) ∧ encode (.encSmall (toValue (-100))) = [0x9C#8] ∧
  decodeTableWord 24 0x80E803 = some (.encMedium (toValue 1000)) ∧
  encode (.encMedium (toValue 1000)) = [0x80#8, 0xE8#8, 0x03#8] ∧
  decodeTableWord 40 0x8178563412 = some (.encLarge (toValue 305419896)) ∧
  encode (.encLarge (toValue 305419896)) = [0x81#8, 0x78#8, 0x56#8, 0x34#8, 0x12#8]

/-! ### The decoder's record operations (42_decoder.md) -/

/-- R154, with its frame: in RUN with a byte left, `DEC.SMALL` completes. It appends the byte read as signed, moves the
cursor by 1, and changes nothing else; every value of the small domain is reached by exactly one byte. -/
def Obligations.DecSmallAppendsSignedByte : Prop :=
  (∀ (s : State) (u : Byte), (Instr.decSmall u).wf = true → s.dec.ph = .run → s.dec.cur < s.dec.len →
    within s.par.bmax (s.dec.ocnt + 1) = true →
    ∃ (t : State) (x : Value), exec (.decSmall u) s = .next t ∧
      memGet t.dec.ov s.dec.ocnt = some x ∧ x.toInt = (if u.toNat < 128 then (u.toNat : Int) else u.toNat - 256) ∧
      -126 ≤ x.toInt ∧ x.toInt ≤ 127 ∧
      (∀ a, a ≠ s.dec.ocnt → memGet t.dec.ov a = memGet s.dec.ov a) ∧
      t = { s with dec := { s.dec with ov := t.dec.ov, ocnt := s.dec.ocnt + 1, cur := s.dec.cur + 1 } }) ∧
  (∀ (s : State) (u : Byte), s.dec.ph = .run → s.dec.cur < s.dec.len → memGet s.dec.ib s.dec.cur = some u →
    u ≠ 0x80#8 → u ≠ 0x81#8 → fetch .dec s = .record (.decSmall u)) ∧
  ∀ x : Int, -126 ≤ x → x ≤ 127 → ∃! u : Byte, (Instr.decSmall u).wf = true ∧ sint8 u = x

/-- R155, with its frame: in RUN with 3 bytes left, `DEC.MEDIUM` completes. It appends `p0 + 256 * sint8(p1)`, moves the
cursor by 3, and changes nothing else. The second clause, that `exec` of it with 1 or 2 bytes left takes Truncated Record,
is the model's choice (log 8, DEDUCED): R155 has the framer raise before the operation runs, which `ErrorStepWrites`
states of the step. -/
def Obligations.DecMediumAppendsGatheredPayload : Prop :=
  (∀ (s : State) (p0 p1 : Byte), s.dec.ph = .run → s.dec.cur + 3 ≤ s.dec.len →
    within s.par.bmax (s.dec.ocnt + 1) = true →
    ∃ (t : State) (x : Value), exec (.decMedium p0 p1) s = .next t ∧
      memGet t.dec.ov s.dec.ocnt = some x ∧ x.toInt = (p0.toNat : Int) + 256 * p1.toInt ∧
      (∀ a, a ≠ s.dec.ocnt → memGet t.dec.ov a = memGet s.dec.ov a) ∧
      t = { s with dec := { s.dec with ov := t.dec.ov, ocnt := s.dec.ocnt + 1, cur := s.dec.cur + 3 } }) ∧
  (∀ (s : State) (p0 p1 : Byte) (rem : Nat), s.dec.ph = .run → s.dec.len = s.dec.cur + rem → 1 ≤ rem → rem ≤ 2 →
    exec (.decMedium p0 p1) s = .next { s with dec := { s.dec with
      err := .truncatedRecord, exp := 3, avl := rem, ocnt := 0, ph := .done } }) ∧
  (∀ (s : State) (p0 p1 : Byte), s.dec.ph = .run → s.dec.cur + 3 ≤ s.dec.len →
    memSlice s.dec.ib s.dec.cur 3 = some [0x80#8, p0, p1] → fetch .dec s = .record (.decMedium p0 p1)) ∧
  ∀ x : Int, -32768 ≤ x → x ≤ 32767 → ∃! p : Byte × Byte, (p.1.toNat : Int) + 256 * p.2.toInt = x

/-- R156, with its frame: in RUN with 5 bytes left, `DEC.LARGE` completes. It appends the little-endian combination of the
4 payload bytes, the last read as signed, moves the cursor by 5, and changes nothing else. The second clause, that `exec`
of it with 1 to 4 bytes left takes Truncated Record, is the model's choice (log 8, DEDUCED): R156 has the framer raise
before the operation runs, which `ErrorStepWrites` states of the step. -/
def Obligations.DecLargeAppendsGatheredPayload : Prop :=
  (∀ (s : State) (p0 p1 p2 p3 : Byte), s.dec.ph = .run → s.dec.cur + 5 ≤ s.dec.len →
    within s.par.bmax (s.dec.ocnt + 1) = true →
    ∃ (t : State) (x : Value), exec (.decLarge p0 p1 p2 p3) s = .next t ∧
      memGet t.dec.ov s.dec.ocnt = some x ∧
      x.toInt = (p0.toNat : Int) + 256 * p1.toNat + 65536 * p2.toNat + 16777216 * p3.toInt ∧
      (∀ a, a ≠ s.dec.ocnt → memGet t.dec.ov a = memGet s.dec.ov a) ∧
      t = { s with dec := { s.dec with ov := t.dec.ov, ocnt := s.dec.ocnt + 1, cur := s.dec.cur + 5 } }) ∧
  (∀ (s : State) (p0 p1 p2 p3 : Byte) (rem : Nat), s.dec.ph = .run → s.dec.len = s.dec.cur + rem → 1 ≤ rem →
    rem ≤ 4 → exec (.decLarge p0 p1 p2 p3) s = .next { s with dec := { s.dec with
      err := .truncatedRecord, exp := 5, avl := rem, ocnt := 0, ph := .done } }) ∧
  (∀ (s : State) (p0 p1 p2 p3 : Byte), s.dec.ph = .run → s.dec.cur + 5 ≤ s.dec.len →
    memSlice s.dec.ib s.dec.cur 5 = some [0x81#8, p0, p1, p2, p3] →
    fetch .dec s = .record (.decLarge p0 p1 p2 p3)) ∧
  ∀ x : Int, -2147483648 ≤ x → x ≤ 2147483647 → ∃! p : Byte × Byte × Byte × Byte,
    (p.1.toNat : Int) + 256 * p.2.1.toNat + 65536 * p.2.2.1.toNat + 16777216 * p.2.2.2.toInt = x

/-! ### The encoder's record operations (41_encoder.md) -/

/-- R132, with its frame: in RUN with a value left and room for 1 byte (which R27 gives), `ENC.SMALL` completes. It
stores the low byte of the value at `OLEN`, counts it, moves to the next value, and changes nothing else. -/
def Obligations.EncSmallEmitsLowByte : Prop :=
  ∀ (s : State) (v : Value), -126 ≤ v.toInt → v.toInt ≤ 127 → s.enc.ph = .run → s.enc.idx < s.enc.n →
    within (obCapacity s.par) (s.enc.olen + 1) = true →
    (memGet s.enc.iv s.enc.idx = some v → fetch .enc s = .record (.encSmall v)) ∧
    ∃ t : State, exec (.encSmall v) s = .next t ∧
      memSlice t.enc.ob s.enc.olen 1 = some [v.extractLsb' 0 8] ∧
      v.extractLsb' 0 8 ≠ 0x80#8 ∧ v.extractLsb' 0 8 ≠ 0x81#8 ∧
      (∀ a, a ≠ s.enc.olen → memGet t.enc.ob a = memGet s.enc.ob a) ∧
      t = { s with enc := { s.enc with ob := t.enc.ob, olen := s.enc.olen + 1, idx := s.enc.idx + 1 } }

/-- R133, with its frame: in RUN with a value left and room for 3 bytes, `ENC.MEDIUM` completes. It stores the tag, the
low byte and bits 15..8 of the value from `OLEN` on, and changes nothing else but the two counts. -/
def Obligations.EncMediumEmitsTagAndTwoBytes : Prop :=
  ∀ (s : State) (v : Value), (-32768 ≤ v.toInt ∧ v.toInt ≤ -127) ∨ (128 ≤ v.toInt ∧ v.toInt ≤ 32767) →
    s.enc.ph = .run → s.enc.idx < s.enc.n → within (obCapacity s.par) (s.enc.olen + 3) = true →
    (memGet s.enc.iv s.enc.idx = some v → fetch .enc s = .record (.encMedium v)) ∧
    ∃ t : State, exec (.encMedium v) s = .next t ∧
      memSlice t.enc.ob s.enc.olen 3 = some [0x80#8, v.extractLsb' 0 8, v.extractLsb' 8 8] ∧
      (∀ a, a < s.enc.olen ∨ s.enc.olen + 3 ≤ a → memGet t.enc.ob a = memGet s.enc.ob a) ∧
      t = { s with enc := { s.enc with ob := t.enc.ob, olen := s.enc.olen + 3, idx := s.enc.idx + 1 } }

/-- R134, with its frame: in RUN with a value left and room for 5 bytes, `ENC.LARGE` completes. It stores the tag and the
four bytes of the value, least significant first, from `OLEN` on, and changes nothing else but the two counts. -/
def Obligations.EncLargeEmitsTagAndFourBytes : Prop :=
  ∀ (s : State) (v : Value), v.toInt ≤ -32769 ∨ 32768 ≤ v.toInt →
    s.enc.ph = .run → s.enc.idx < s.enc.n → within (obCapacity s.par) (s.enc.olen + 5) = true →
    (memGet s.enc.iv s.enc.idx = some v → fetch .enc s = .record (.encLarge v)) ∧
    ∃ t : State, exec (.encLarge v) s = .next t ∧
      memSlice t.enc.ob s.enc.olen 5 =
        some [0x81#8, v.extractLsb' 0 8, v.extractLsb' 8 8, v.extractLsb' 16 8, v.extractLsb' 24 8] ∧
      (∀ a, a < s.enc.olen ∨ s.enc.olen + 5 ≤ a → memGet t.enc.ob a = memGet s.enc.ob a) ∧
      t = { s with enc := { s.enc with ob := t.enc.ob, olen := s.enc.olen + 5, idx := s.enc.idx + 1 } }

/-- R23, U9 (log 7): a record operation outside its unit's RUN phase, with its unit's input used up, or with no room in
its output buffer, is a fault. -/
def Obligations.RecordOperationFaults : Prop :=
  ∀ (s : State) (i : Instr),
    (isDec i = true → s.dec.ph ≠ .run → exec i s = .fault (.unitNotRunning .dec)) ∧
    (isDec i = true → s.dec.ph = .run → s.dec.len ≤ s.dec.cur → exec i s = .fault (.readOutOfBounds .ib)) ∧
    (isDec i = false → s.enc.ph ≠ .run → exec i s = .fault (.unitNotRunning .enc)) ∧
    (isDec i = false → s.enc.ph = .run → s.enc.n ≤ s.enc.idx → exec i s = .fault (.readOutOfBounds .iv)) ∧
    (isDec i = true → s.dec.ph = .run → s.dec.cur + (encode i).length ≤ s.dec.len →
      within s.par.bmax (s.dec.ocnt + 1) = false → exec i s = .fault (.writeBeyondCapacity .ov)) ∧
    (isDec i = false → s.enc.ph = .run → s.enc.idx < s.enc.n →
      within (obCapacity s.par) (s.enc.olen + (encode i).length) = false →
      exec i s = .fault (.writeBeyondCapacity .ob))

/-! ### The units' steps and the machine's step -/

/-- A step runs the decoded instruction: on `DEC`'s turn, in RUN, where the bytes from the cursor to the end of the buffer
decode to a record, the step is that record operation's meaning with the turn used up. (That a step takes the first
placed turn is the model's choice, log 2.) -/
def Obligations.StepRunsDecodedRecord : Prop :=
  ∀ (s : State) (ts : List Turn) (bs : List Byte) (i : Instr) (rest : List Byte),
    s.turns = .unit .dec :: ts → s.dec.ph = .run → s.dec.cur < s.dec.len →
    memSlice s.dec.ib s.dec.cur (s.dec.len - s.dec.cur) = some bs → decode bs = .record i rest →
    step s = exec i (s.withTurns ts)

/-- A step runs the selected instruction: on `ENC`'s turn, in RUN, with a value left, the step is the meaning of the
record operation selected for that value, with the turn used up. (That a step takes the first placed turn is the model's
choice, log 2.) -/
def Obligations.StepRunsSelectedRecord : Prop :=
  ∀ (s : State) (ts : List Turn) (v : Value),
    s.turns = .unit .enc :: ts → s.enc.ph = .run → s.enc.idx < s.enc.n → memGet s.enc.iv s.enc.idx = some v →
    step s = exec (selectRecord v) (s.withTurns ts)

/-- R203: the error step. Where fewer bytes remain than the tag at the cursor asks for, the error fields are set, the
count is 0, the phase is DONE, and nothing else changes: the cursor stays at the tag, and no byte after the tag is read
(the statement asks nothing of them). The unit takes no further step. -/
def Obligations.ErrorStepWrites : Prop :=
  ∀ (s : State) (ts : List Turn) (t : Byte),
    s.turns = .unit .dec :: ts → s.dec.ph = .run → s.dec.cur < s.dec.len → memGet s.dec.ib s.dec.cur = some t →
    (t = 0x80#8 ∧ s.dec.len - s.dec.cur < 3) ∨ (t = 0x81#8 ∧ s.dec.len - s.dec.cur < 5) →
    ∃ s' : State, step s = .next s' ∧
      s' = { s with
        turns := ts
        dec := { s.dec with
          err := .truncatedRecord, exp := (if t = 0x80#8 then 3 else 5), avl := s.dec.len - s.dec.cur, ocnt := 0
          ph := .done } } ∧
      unitStep .dec s' = .fault (.unitNotRunning .dec)

/-- R136, R158: the finishing steps. With the input used up a running unit's step only sets its phase to DONE. -/
def Obligations.FinishingStepSetsDone : Prop :=
  ∀ (s : State) (ts : List Turn),
    (s.turns = .unit .enc :: ts → s.enc.ph = .run → s.enc.idx = s.enc.n →
      step s = .next { s with turns := ts, enc := { s.enc with ph := .done } }) ∧
    (s.turns = .unit .dec :: ts → s.dec.ph = .run → s.dec.cur = s.dec.len →
      step s = .next { s with turns := ts, dec := { s.dec with ph := .done } })

/-- The model's choice (logs 2 and 3): a placed turn is taken first; with none placed a running unit steps, `ENC` before
`DEC`; with no unit running the machine stays as it is (R23, R219). -/
def Obligations.StepFollowsTurns : Prop :=
  ∀ (s : State) (ts : List Turn),
    (∀ m, s.turns = .host m :: ts → step s = hostMove m (s.withTurns ts)) ∧
    (∀ u, s.turns = .unit u :: ts → step s = unitStep u (s.withTurns ts)) ∧
    (s.turns = [] → s.enc.ph = .run → step s = unitStep .enc s) ∧
    (s.turns = [] → s.enc.ph ≠ .run → s.dec.ph = .run → step s = unitStep .dec s) ∧
    (s.turns = [] → s.enc.ph ≠ .run → s.dec.ph ≠ .run → step s = .next s)

/-! ### Reset and the host's moves -/

/-- R35: the reset state's registers. Buffer elements are unspecified, so the rule asks nothing of them. -/
def Obligations.ResetStateRegisters : Prop :=
  State.reset.enc.ph = .idle ∧ State.reset.dec.ph = .idle ∧
  State.reset.enc.n = 0 ∧ State.reset.enc.idx = 0 ∧ State.reset.enc.olen = 0 ∧
  State.reset.dec.len = 0 ∧ State.reset.dec.cur = 0 ∧ State.reset.dec.ocnt = 0 ∧
  State.reset.dec.err = .noError ∧ State.reset.dec.exp = 0 ∧ State.reset.dec.avl = 0

/-- The model's choice (log 5): at reset no buffer element has a value, so a read of one faults. -/
def Obligations.ResetBuffersHoldNoValue : Prop :=
  ∀ a, (memGet State.reset.enc.iv a = none ∧ memGet State.reset.enc.ob a = none ∧
    memGet State.reset.dec.ib a = none ∧ memGet State.reset.dec.ov a = none) ∧
  ∀ valid, a < valid →
    memReadOne .iv State.reset.enc.iv valid a = .error (.readUnwritten .iv) ∧
    memReadOne .ib State.reset.dec.ib valid a = .error (.readUnwritten .ib)

/-- R230, R232: the move `reset` is allowed in every state, RUN included, and puts every register of both units at its
reset value; R232: no result can be read after it. That such a read is refused by name is the model's choice (log 6,
DESIGN CHOICE), and so is that the parameters and the host's own turns and replies stay (logs 1, 2 and 4). -/
def Obligations.ResetMoveFromAnyState : Prop :=
  ∀ (s : State) (ts : List Turn), s.turns = .host .reset :: ts →
    ∃ t : State, step s = .next t ∧
      t.enc = { State.reset.enc with iv := t.enc.iv, ob := t.enc.ob } ∧
      t.dec = { State.reset.dec with ib := t.dec.ib, ov := t.dec.ov } ∧
      t = { s with turns := ts, enc := t.enc, dec := t.dec } ∧
      hostMove .encRead t = .refused (.readNotDone .enc) ∧ hostMove .decRead t = .refused (.readNotDone .dec)

/-- R22: `ENC.start`. Where it is allowed, the values are loaded at 0, the other elements of `ENC.IV` stay, the counts are
0, the phase is RUN, and nothing else changes. -/
def Obligations.EncStartLoadsAndRuns : Prop :=
  ∀ (s : State) (vs : List Value), s.enc.ph ≠ .run → within s.par.nmax vs.length = true →
    ∃ t : State, hostMove (.encStart vs) s = .next t ∧
      memSlice t.enc.iv 0 vs.length = some vs ∧ (∀ a, vs.length ≤ a → memGet t.enc.iv a = memGet s.enc.iv a) ∧
      t = { s with enc := { s.enc with iv := t.enc.iv, n := vs.length, idx := 0, olen := 0, ph := .run } }

/-- R22: `DEC.start`. Where it is allowed, the bytes are loaded at 0, the other elements of `DEC.IB` stay, the counts and
the error fields are 0, the phase is RUN, and nothing else changes. -/
def Obligations.DecStartLoadsAndRuns : Prop :=
  ∀ (s : State) (bs : List Byte), s.dec.ph ≠ .run → within s.par.bmax bs.length = true →
    ∃ t : State, hostMove (.decStart bs) s = .next t ∧
      memSlice t.dec.ib 0 bs.length = some bs ∧ (∀ a, bs.length ≤ a → memGet t.dec.ib a = memGet s.dec.ib a) ∧
      t = { s with dec := { s.dec with
        ib := t.dec.ib, len := bs.length, cur := 0, ocnt := 0, err := .noError, exp := 0, avl := 0, ph := .run } }

/-- R22: the reads. In DONE they return the valid output, and for `DEC` the error fields, and change nothing of the
block. (What they return goes to the head of the model's own list `received`, log 4.) -/
def Obligations.ReadsReturnResultsAndChangeNothing : Prop :=
  ∀ (s : State),
    (∀ bs, s.enc.ph = .done → memSlice s.enc.ob 0 s.enc.olen = some bs →
      hostMove .encRead s = .next { s with received := .encoded bs :: s.received }) ∧
    ∀ vs, s.dec.ph = .done → memSlice s.dec.ov 0 s.dec.ocnt = some vs →
      hostMove .decRead s = .next { s with received := .decoded s.dec.err s.dec.exp s.dec.avl vs :: s.received }

/-- R22, R27, R235 and the model's choice of a refusal (log 6): a start in RUN, a start that is too long and a read outside
DONE are not host moves. -/
def Obligations.MovesOutsideTheTableRefused : Prop :=
  ∀ (s : State),
    (∀ vs, s.enc.ph = .run → hostMove (.encStart vs) s = .refused (.startWhileRunning .enc)) ∧
    (∀ vs, s.enc.ph ≠ .run → within s.par.nmax vs.length = false →
      hostMove (.encStart vs) s = .refused (.startTooLong .enc)) ∧
    (s.enc.ph ≠ .done → hostMove .encRead s = .refused (.readNotDone .enc)) ∧
    (∀ bs, s.dec.ph = .run → hostMove (.decStart bs) s = .refused (.startWhileRunning .dec)) ∧
    (∀ bs, s.dec.ph ≠ .run → within s.par.bmax bs.length = false →
      hostMove (.decStart bs) s = .refused (.startTooLong .dec)) ∧
    (s.dec.ph ≠ .done → hostMove .decRead s = .refused (.readNotDone .dec))

/-! ### Invariants and whole-machine rules -/

/-- R37 and the one form of every buffer: every step keeps them. -/
def Obligations.StepKeepsInvariants : Prop :=
  ∀ s t : State, s.Inv → step s = .next t → t.Inv

/-- R37 at the reset state. -/
def Obligations.ResetStateMeetsInvariants : Prop := State.reset.Inv

/-- Every step keeps every buffer in its one form, in any state. -/
def Obligations.StepKeepsBuffersCanonical : Prop :=
  ∀ s t : State, s.canonical = true → step s = .next t → t.canonical = true

/-- R23, R27, R56, R139: in a state with the invariants of R37, a running unit always has a step, and it neither faults
nor is refused. -/
def Obligations.RunningUnitNeverStuck : Prop :=
  ∀ (s : State) (u : UnitId), s.Inv → s.phase u = .run → ∃ t, unitStep u s = .next t

/-- R237: from a state with the invariants of R37, a running encoder is DONE after exactly one step for each value left
and one more, and a running decoder after at least 1 and at most one step for each byte left and one more. -/
def Obligations.RunningUnitFinishesInTime : Prop :=
  ∀ s : State, s.Inv →
    (s.enc.ph = .run →
      (∃ t, runUnit .enc (s.enc.n - s.enc.idx + 1) s = .next t ∧ t.enc.ph = .done) ∧
      ∀ k, k ≤ s.enc.n - s.enc.idx → ∃ t, runUnit .enc k s = .next t ∧ t.enc.ph = .run) ∧
    (s.dec.ph = .run →
      ∃ k t, 1 ≤ k ∧ k ≤ s.dec.len - s.dec.cur + 1 ∧ runUnit .dec k s = .next t ∧ t.dec.ph = .done ∧
        ∀ j, j < k → ∃ t', runUnit .dec j s = .next t' ∧ t'.dec.ph = .run)

/-- R21: the units share no state. A unit's step changes nothing of the other unit, its effect depends on its own unit
(and the parameters) alone, and the two units' steps commute. -/
def Obligations.UnitsDoNotInterfere : Prop :=
  (∀ s t : State, unitStep .enc s = .next t → t = { s with enc := t.enc }) ∧
  (∀ s t : State, unitStep .dec s = .next t → t = { s with dec := t.dec }) ∧
  (∀ s s' t : State, s'.enc = s.enc → s'.par = s.par → unitStep .enc s = .next t →
    unitStep .enc s' = .next { s' with enc := t.enc }) ∧
  (∀ s s' t : State, s'.dec = s.dec → s'.par = s.par → unitStep .dec s = .next t →
    unitStep .dec s' = .next { s' with dec := t.dec }) ∧
  ∀ s a b : State, unitStep .enc s = .next a → unitStep .dec s = .next b →
    ∃ c, unitStep .dec a = .next c ∧ unitStep .enc b = .next c

/-- R23: the only ways a unit's phase changes. -/
def Obligations.PhaseTransitions : Prop :=
  ∀ s t : State, step s = .next t →
    (t.enc.ph = s.enc.ph ∨
      (s.enc.ph ≠ .run ∧ t.enc.ph = .run ∧ ∃ vs ts, s.turns = .host (.encStart vs) :: ts) ∨
      (s.enc.ph = .run ∧ t.enc.ph = .done ∧ s.enc.idx = s.enc.n ∧ ∃ s', nextTurn s = some (.unit .enc, s')) ∨
      (t.enc.ph = .idle ∧ ∃ ts, s.turns = .host .reset :: ts)) ∧
    (t.dec.ph = s.dec.ph ∨
      (s.dec.ph ≠ .run ∧ t.dec.ph = .run ∧ ∃ bs ts, s.turns = .host (.decStart bs) :: ts) ∨
      (s.dec.ph = .run ∧ t.dec.ph = .done ∧ ∃ s', nextTurn s = some (.unit .dec, s')) ∨
      (t.dec.ph = .idle ∧ ∃ ts, s.turns = .host .reset :: ts))

/-- R30: the flag `ERR` is set by the error step of the decoder and by nothing else, and cleared by `DEC.start` and
`reset`, never by a unit's step. -/
def Obligations.ErrorFlagSetAndCleared : Prop :=
  ∀ s t : State, step s = .next t →
    (s.dec.err = .noError → t.dec.err = .truncatedRecord →
      s.dec.ph = .run ∧ t.dec.ph = .done ∧ t.dec.ocnt = 0 ∧ t.dec.cur = s.dec.cur ∧
        ∃ s', nextTurn s = some (.unit .dec, s')) ∧
    (s.dec.err = .truncatedRecord → t.dec.err = .noError →
      ∃ ts, (∃ bs, s.turns = .host (.decStart bs) :: ts) ∨ s.turns = .host .reset :: ts)

/-- R28, R29: within a transaction the cursor and the index never decrease: a unit's step leaves the cursor where it is or
moves it by 1, 3 or 5, not past the end of the buffer, and leaves the index where it is or moves it by 1. -/
def Obligations.PositionsAdvance : Prop :=
  (∀ s t : State, unitStep .dec s = .next t →
    t.dec.len = s.dec.len ∧
    (t.dec.cur = s.dec.cur ∨
      ((t.dec.cur = s.dec.cur + 1 ∨ t.dec.cur = s.dec.cur + 3 ∨ t.dec.cur = s.dec.cur + 5) ∧ t.dec.cur ≤ t.dec.len))) ∧
  ∀ s t : State, unitStep .enc s = .next t →
    t.enc.n = s.enc.n ∧ (t.enc.idx = s.enc.idx ∨ (t.enc.idx = s.enc.idx + 1 ∧ t.enc.idx ≤ t.enc.n))

/-- R51, R65: a unit never writes its own input buffer, the host's moves other than `reset` never write an output buffer,
and only a start or `reset` writes an input buffer. No step changes the parameters. -/
def Obligations.BuffersWrittenOnlyByTheirOwner : Prop :=
  ∀ s t : State, step s = .next t →
    t.par = s.par ∧
    (t.enc.iv ≠ s.enc.iv → ∃ ts, (∃ vs, s.turns = .host (.encStart vs) :: ts) ∨ s.turns = .host .reset :: ts) ∧
    (t.dec.ib ≠ s.dec.ib → ∃ ts, (∃ bs, s.turns = .host (.decStart bs) :: ts) ∨ s.turns = .host .reset :: ts) ∧
    (t.enc.ob ≠ s.enc.ob → (∃ s', nextTurn s = some (.unit .enc, s')) ∨ ∃ ts, s.turns = .host .reset :: ts) ∧
    (t.dec.ov ≠ s.dec.ov → (∃ s', nextTurn s = some (.unit .dec, s')) ∨ ∃ ts, s.turns = .host .reset :: ts)

/-! ### The transactions -/

/-- R138: `ENCODE`. A machine whose encoder is not running, given the turns `ENC.start(vs)`, one encoder step for each
value and one more, and `ENC.read`, takes them all; the read returns `encode(vs)`, and nothing outside `ENC` has
changed. -/
def Obligations.EncodeTransaction : Prop :=
  ∀ (s : State) (vs : List Value), s.enc.ph ≠ .run → within s.par.nmax vs.length = true →
    ∃ t : State, runSteps (vs.length + 3) (s.withTurns
        (.host (.encStart vs) :: (List.replicate (vs.length + 1) (Turn.unit .enc) ++ [.host .encRead]))) = .next t ∧
      t.enc.ph = .done ∧ t.enc.olen = (encodeSeq vs).length ∧
      memSlice t.enc.ob 0 t.enc.olen = some (encodeSeq vs) ∧ memSlice t.enc.iv 0 vs.length = some vs ∧
      t.received = .encoded (encodeSeq vs) :: s.received ∧
      t = { s with enc := t.enc, turns := [], received := t.received }

/-- R165: `DECODE`. After `DEC.start(bs)` and some number of decoder steps, at most one for each byte and one more, the
decoder is DONE with the fields that `decode(bs)` gives, `DEC.read` returns them, and nothing outside `DEC` has
changed. -/
def Obligations.DecodeTransaction : Prop :=
  ∀ (s : State) (bs : List Byte), s.dec.ph ≠ .run → within s.par.bmax bs.length = true →
    ∃ (k : Nat) (t : State), 1 ≤ k ∧ k ≤ bs.length + 1 ∧
      runSteps (k + 2) (s.withTurns
        (.host (.decStart bs) :: (List.replicate k (Turn.unit .dec) ++ [.host .decRead]))) = .next t ∧
      t.dec.ph = .done ∧ memSlice t.dec.ib 0 bs.length = some bs ∧
      t = { s with dec := t.dec, turns := [], received := t.received } ∧
      match decodeBuf bs with
      | .ok vs => t.dec.err = .noError ∧ t.dec.exp = 0 ∧ t.dec.avl = 0 ∧ t.dec.ocnt = vs.length ∧
          memSlice t.dec.ov 0 t.dec.ocnt = some vs ∧ t.dec.cur = bs.length ∧
          t.received = .decoded .noError 0 0 vs :: s.received
      | .err e a => t.dec.err = .truncatedRecord ∧ t.dec.exp = e ∧ t.dec.avl = a ∧ t.dec.ocnt = 0 ∧
          t.dec.cur = bs.length - a ∧ t.received = .decoded .truncatedRecord e a [] :: s.received

/-- R36: the outcome of a transaction does not depend on the state before its start. -/
def Obligations.StartForgetsEarlierState : Prop :=
  (∀ (vs : List Value) (s s' a a' t t' : State) (k : Nat),
    hostMove (.encStart vs) s = .next a → hostMove (.encStart vs) s' = .next a' →
    runUnit .enc k a = .next t → runUnit .enc k a' = .next t' →
    t'.enc.ph = t.enc.ph ∧ encOutcome t' = encOutcome t) ∧
  ∀ (bs : List Byte) (s s' a a' t t' : State) (k : Nat),
    hostMove (.decStart bs) s = .next a → hostMove (.decStart bs) s' = .next a' →
    runUnit .dec k a = .next t → runUnit .dec k a' = .next t' →
    t'.dec.ph = t.dec.ph ∧ decOutcome t' = decOutcome t

/-! ### Properties of the codec (43_properties.md) -/

/-- R180: `decode(encode(vs)) = Ok(vs)`. -/
def Obligations.RoundTrip : Prop :=
  ∀ vs : List Value, decodeBuf (encodeSeq vs) = .ok vs

/-- R181: the length of one value's record. -/
def Obligations.LengthBounds : Prop :=
  ∀ v : Value, (encodeSeq [v]).length =
    if -126 ≤ v.toInt ∧ v.toInt ≤ 127 then 1
    else if (-32768 ≤ v.toInt ∧ v.toInt ≤ -127) ∨ (128 ≤ v.toInt ∧ v.toInt ≤ 32767) then 3 else 5

/-- R182: boundary exactness, with the two corrected literals (90_conflicts.md C1, C2). -/
def Obligations.BoundaryExactness : Prop :=
  encodeSeq [toValue (-126)] = [0x82#8] ∧ encodeSeq [toValue 127] = [0x7F#8] ∧
  encodeSeq [toValue (-127)] = [0x80#8, 0x81#8, 0xFF#8] ∧ encodeSeq [toValue 128] = [0x80#8, 0x80#8, 0x00#8] ∧
  encodeSeq [toValue (-32768)] = [0x80#8, 0x00#8, 0x80#8] ∧
  encodeSeq [toValue 32768] = [0x81#8, 0x00#8, 0x80#8, 0x00#8, 0x00#8] ∧
  encodeSeq [] = [] ∧ decodeBuf [] = .ok []

/-- R183: truncation detection. -/
def Obligations.TruncationDetection : Prop :=
  decodeBuf [0x80#8, 0x02#8] = .err 3 2 ∧ decodeBuf [0x81#8, 0x02#8, 0x03#8, 0x04#8] = .err 5 4

/-- R184: no value of the small domain is encoded as a lone tag byte. -/
def Obligations.TagNonCollision : Prop :=
  ∀ v : Value, -126 ≤ v.toInt → v.toInt ≤ 127 →
    enc1 v = [u8 v.toInt] ∧ ((u8 v.toInt).toNat ≤ 0x7F ∨ 0x82 ≤ (u8 v.toInt).toNat)

/-- R185, R186: `encode` of a concatenation is the concatenation, and decodes to it. -/
def Obligations.Concatenation : Prop :=
  ∀ a b : List Value, encodeSeq (a ++ b) = encodeSeq a ++ encodeSeq b ∧
    decodeBuf (encodeSeq a ++ encodeSeq b) = .ok (a ++ b)

/-- R187: decoding what follows a buffer that decodes. -/
def Obligations.DecodeOfConcatenation : Prop :=
  ∀ (x y : List Byte) (a : List Value), decodeBuf x = .ok a →
    (∀ c, decodeBuf y = .ok c → decodeBuf (x ++ y) = .ok (a ++ c)) ∧
    ∀ e n, decodeBuf y = .err e n → decodeBuf (x ++ y) = .err e n

/-- R95, R188: `encode` is injective; every buffer that decodes is a sequence of records in exactly one way, and the
encoding of its values is that buffer exactly when every record is canonical, and is never longer; `decode` is not
injective. -/
def Obligations.InjectivityAndCanonicalRecords : Prop :=
  (∀ vs ws : List Value, encodeSeq vs = encodeSeq ws → vs = ws) ∧
  (∀ (b : List Byte) (vs : List Value), decodeBuf b = .ok vs →
    ∃! rs : List Instr, (∀ r ∈ rs, isDec r = true ∧ r.wf = true) ∧ (rs.map encode).flatten = b) ∧
  (∀ (rs : List Instr), (∀ r ∈ rs, isDec r = true ∧ r.wf = true) →
    decodeBuf (rs.map encode).flatten = .ok (rs.map carried) ∧
    (encodeSeq (rs.map carried) = (rs.map encode).flatten ↔ ∀ r ∈ rs, encode r = enc1 (carried r)) ∧
    (encodeSeq (rs.map carried)).length ≤ (rs.map encode).flatten.length) ∧
  decodeBuf [0x05#8] = .ok [toValue 5] ∧ decodeBuf [0x80#8, 0x05#8, 0x00#8] = .ok [toValue 5] ∧
  decodeBuf [0x81#8, 0x05#8, 0x00#8, 0x00#8, 0x00#8] = .ok [toValue 5]

/-- R189: when `decode` gives an error, and which. -/
def Obligations.DecodeErrorsExactly : Prop :=
  ∀ (b : List Byte) (e n : Nat), decodeBuf b = .err e n ↔
    ∃ (pre suf : List Byte) (vs : List Value), b = pre ++ suf ∧ decodeBuf pre = .ok vs ∧ n = suf.length ∧
      ((suf[0]? = some 0x80#8 ∧ e = 3 ∧ (n = 1 ∨ n = 2)) ∨
       (suf[0]? = some 0x81#8 ∧ e = 5 ∧ (n = 1 ∨ n = 2 ∨ n = 3 ∨ n = 4)))

/-- R190: a cut of an encoder's output at a record boundary decodes to the values before the cut, and any other cut is the
truncation of the cut record. -/
def Obligations.CutOfEncoderOutput : Prop :=
  ∀ (vs : List Value) (k : Nat), k ≤ (encodeSeq vs).length →
    (∃ j, j ≤ vs.length ∧ k = (encodeSeq (vs.take j)).length ∧
      decodeBuf ((encodeSeq vs).take k) = .ok (vs.take j)) ∨
    (∃ j v, vs[j]? = some v ∧ (encodeSeq (vs.take j)).length < k ∧
      k < (encodeSeq (vs.take j)).length + (enc1 v).length ∧
      decodeBuf ((encodeSeq vs).take k) = .err (enc1 v).length (k - (encodeSeq (vs.take j)).length))

/-- R191: the sizes of an encoding and of what a buffer decodes to. -/
def Obligations.SizeBounds : Prop :=
  (∀ vs : List Value, vs.length ≤ (encodeSeq vs).length ∧ (encodeSeq vs).length ≤ 5 * vs.length) ∧
  ∀ (b : List Byte) (vs : List Value), decodeBuf b = .ok vs → vs.length ≤ b.length ∧ b.length ≤ 5 * vs.length
end

