-- ==== Sys2Proof/Laws/Operands.lean ====
section
/-! SUPPORT. The bit-level forms of the data-path primitives: what the hardware wires for what the rules write as integer
arithmetic. -/

namespace Sys2Proof.Machine

/-- Sign reinterpretation reads the byte as two's complement (R110). -/
theorem sint8_eq_toInt (u : Byte) : sint8 u = u.toInt := by
  simp only [sint8, BitVec.toInt_eq_toNat_cond]
  split <;> split <;> omega

/-- `u8` keeps the low 8 bits of the pattern (R111). -/
theorem u8_eq_ofInt (v : Int) : u8 v = BitVec.ofInt 8 v := by
  apply BitVec.eq_of_toNat_eq
  simp only [u8, BitVec.toNat_ofNat, BitVec.toNat_ofInt]
  omega

theorem u8_toInt (v : Value) : u8 v.toInt = v.setWidth 8 := by
  rw [u8_eq_ofInt]
  apply BitVec.eq_of_toNat_eq
  simp only [BitVec.toNat_ofInt, BitVec.toNat_setWidth, BitVec.toInt_eq_toNat_cond]
  split <;> omega

/-- `byte_k` is the k-th byte of the 32-bit word (R114). -/
theorem byteK_eq_extract (v : Value) {k : Nat} (h : k < 4) : byteK k v = v.extractLsb' (8 * k) 8 := by
  have hv := v.isLt
  apply BitVec.eq_of_toNat_eq
  simp only [byteK, bits, BitVec.toNat_ofNat, BitVec.extractLsb'_toNat, BitVec.toInt_eq_toNat_cond, Nat.shiftRight_eq_div_pow]
  obtain rfl | rfl | rfl | rfl : k = 0 ∨ k = 1 ∨ k = 2 ∨ k = 3 := by omega
  all_goals norm_num
  all_goals split <;> omega

@[simp] theorem split16_length (v : Value) : (split16 v).length = 2 := rfl
@[simp] theorem split32_length (v : Value) : (split32 v).length = 4 := rfl

theorem alignHigh_one (h : Byte) : alignHigh 1 h = 256 * h.toInt := by
  simp only [alignHigh, sint8_eq_toInt]; norm_num; ring

theorem alignHigh_three (h : Byte) : alignHigh 3 h = 16777216 * h.toInt := by
  simp only [alignHigh, sint8_eq_toInt]; norm_num; ring

/-- A word carries every integer of the value domain (R8). -/
theorem toInt_toValue {v : Int} (h1 : int32Min ≤ v) (h2 : v ≤ int32Max) : (toValue v).toInt = v := by
  rw [toValue, BitVec.toInt_ofInt]
  simp only [int32Min, int32Max] at h1 h2
  rw [Int.bmod_def]
  split <;> omega

@[simp] theorem toValue_toInt (v : Value) : toValue v.toInt = v := by simp [toValue]

/-- The range of one byte read as signed (R110). -/
theorem sint8_range (u : Byte) : -128 ≤ sint8 u ∧ sint8 u ≤ 127 := by
  have := u.isLt
  unfold sint8
  split <;> omega

theorem fitsSmall_iff (v : Value) : fitsSmall v = true ↔ smallMin ≤ v.toInt ∧ v.toInt ≤ smallMax := by
  simp [fitsSmall]

theorem fitsMedium_iff (v : Value) : fitsMedium v = true ↔ mediumMin ≤ v.toInt ∧ v.toInt ≤ mediumMax := by
  simp [fitsMedium]

end Sys2Proof.Machine
end

