-- ==== Sys2Proof/Laws/Codec.lean ====
section
/-! SUPPORT. The closed-form functions, one equation for each shape of record. -/

namespace Sys2Proof.Machine

@[simp] theorem encodeSeq_nil : encodeSeq [] = [] := rfl
@[simp] theorem encodeSeq_cons (v : Value) (vs : List Value) : encodeSeq (v :: vs) = enc1 v ++ encodeSeq vs := rfl

@[simp] theorem consResult_ok (v : Value) (vs : List Value) : consResult v (.ok vs) = .ok (v :: vs) := rfl
@[simp] theorem consResult_err (v : Value) (e a : Nat) : consResult v (.err e a) = .err e a := rfl

@[simp] theorem decodeBuf_nil : decodeBuf [] = .ok [] := by unfold decodeBuf; rfl

/-- A large record, then the rest (R164). -/
@[simp] theorem decodeBuf_large (p0 p1 p2 p3 : Byte) (more : List Byte) :
    decodeBuf (0x81#8 :: p0 :: p1 :: p2 :: p3 :: more) =
      consResult (toValue (gather32 p0 p1 p2 p3)) (decodeBuf more) := by
  conv => lhs; unfold decodeBuf
  simp

/-- A medium record, then the rest (R164). -/
@[simp] theorem decodeBuf_medium (p0 p1 : Byte) (more : List Byte) :
    decodeBuf (0x80#8 :: p0 :: p1 :: more) = consResult (toValue (gather16 p0 p1)) (decodeBuf more) := by
  conv => lhs; unfold decodeBuf
  simp

/-- A small record, then the rest (R164). -/
theorem decodeBuf_small {t : Byte} (h0 : t ≠ 0x80#8) (h1 : t ≠ 0x81#8) (more : List Byte) :
    decodeBuf (t :: more) = consResult (toValue (sint8 t)) (decodeBuf more) := by
  conv => lhs; unfold decodeBuf
  simp [h0, h1]

/-- A large tag with fewer than 4 bytes after it (R164). -/
theorem decodeBuf_large_short {payload : List Byte} (h : payload.length < 4) :
    decodeBuf (0x81#8 :: payload) = .err 5 (payload.length + 1) := by
  match payload, h with
  | [], _ => rfl
  | [_], _ => rfl
  | [_, _], _ => rfl
  | [_, _, _], _ => rfl

/-- A medium tag with fewer than 2 bytes after it (R164). -/
theorem decodeBuf_medium_short {payload : List Byte} (h : payload.length < 2) :
    decodeBuf (0x80#8 :: payload) = .err 3 (payload.length + 1) := by
  match payload, h with
  | [], _ => rfl
  | [_], _ => rfl

end Sys2Proof.Machine
end

