-- ==== Sys2Proof/Laws/Memory.lean ====
section
/-! SUPPORT. What a buffer operation does to every offset, and that each keeps the one form of a buffer's list. -/

namespace Sys2Proof.Machine

variable {α : Type}

/-! ### One element -/

@[simp] theorem memory_unlisted : (Memory.unlisted : Option α) = none := rfl

@[simp] theorem memGet_nil (a : Nat) : memGet ([] : Memory α) a = none := rfl

@[simp] theorem memGet_memSet_self (m : Memory α) (a : Nat) (x : α) : memGet (memSet m a x) a = some x := by
  induction m with
  | nil => simp [memSet, memGet]
  | cons c m ih =>
    obtain ⟨b, y⟩ := c
    by_cases h1 : a < b
    · simp [memSet, h1, memGet]
    · by_cases h2 : a = b
      · subst h2; simp [memSet, memGet]
      · simp [memSet, h1, h2, memGet, ih]

theorem memGet_memSet_ne (m : Memory α) {a b : Nat} (x : α) (h : b ≠ a) :
    memGet (memSet m a x) b = memGet m b := by
  induction m with
  | nil => simp [memSet, memGet, h]
  | cons c m ih =>
    obtain ⟨k, y⟩ := c
    by_cases h1 : a < k
    · simp [memSet, h1, memGet, h]
    · by_cases h2 : a = k
      · subst h2; simp [memSet, memGet, h]
      · simp [memSet, h1, h2, memGet, ih]

/-- Reading one offset after storing one element. -/
theorem memGet_memSet (m : Memory α) (a b : Nat) (x : α) :
    memGet (memSet m a x) b = if b = a then some x else memGet m b := by
  by_cases h : b = a
  · subst h; simp
  · simp [h, memGet_memSet_ne m x h]

/-! ### Several elements -/

@[simp] theorem memWrite_nil (m : Memory α) (a : Nat) : memWrite m a [] = m := rfl

@[simp] theorem memWrite_cons (m : Memory α) (a : Nat) (x : α) (xs : List α) :
    memWrite m a (x :: xs) = memWrite (memSet m a x) (a + 1) xs := rfl

/-- Reading one offset after a write: the stored element inside the stored range, what was there outside it. -/
theorem memGet_memWrite (m : Memory α) (a : Nat) (xs : List α) (b : Nat) :
    memGet (memWrite m a xs) b = if a ≤ b ∧ b < a + xs.length then xs[b - a]? else memGet m b := by
  induction xs generalizing m a with
  | nil => simp
  | cons x xs ih =>
    rw [memWrite_cons, ih, memGet_memSet]
    rcases lt_trichotomy b a with h | h | h
    · simp [show ¬ a ≤ b by omega, show ¬ a + 1 ≤ b by omega, show b ≠ a by omega]
    · subst h; simp
    · obtain ⟨k, rfl⟩ : ∃ k, b = a + 1 + k := ⟨b - (a + 1), by omega⟩
      have h1 : a + 1 + k - a = k + 1 := by omega
      have h2 : a + 1 + k - (a + 1) = k := by omega
      rw [h1, h2, List.getElem?_cons_succ, List.length_cons, if_neg (show a + 1 + k ≠ a by omega)]
      by_cases hk : k < xs.length
      · rw [if_pos (by omega), if_pos (by omega)]
      · rw [if_neg (by omega), if_neg (by omega)]

/-- Outside the stored range nothing changes. -/
theorem memGet_memWrite_outside (m : Memory α) {a b : Nat} (xs : List α) (h : b < a ∨ a + xs.length ≤ b) :
    memGet (memWrite m a xs) b = memGet m b := by
  rw [memGet_memWrite, if_neg (by omega)]

@[simp] theorem memSlice_zero (m : Memory α) (a : Nat) : memSlice m a 0 = some [] := rfl

/-- A slice is what its offsets read as, one by one. -/
theorem memSlice_eq_some (m : Memory α) (a n : Nat) (xs : List α) :
    memSlice m a n = some xs ↔ xs.length = n ∧ ∀ k, k < n → memGet m (a + k) = xs[k]? := by
  induction n generalizing a xs with
  | zero =>
    constructor
    · intro h; simp [memSlice] at h; simp [← h]
    · rintro ⟨h, -⟩; simp [List.length_eq_zero_iff.mp h]
  | succ n ih =>
    rw [memSlice]
    constructor
    · intro h
      split at h
      · rename_i x ys hx hys
        obtain ⟨hl, hk⟩ := (ih _ _).mp hys
        cases h
        refine ⟨by simp [hl], ?_⟩
        intro k hk'
        cases k with
        | zero => simpa using hx
        | succ k =>
          rw [show a + (k + 1) = a + 1 + k by omega, hk k (by omega), List.getElem?_cons_succ]
      · cases h
    · rintro ⟨hl, hk⟩
      cases xs with
      | nil => simp at hl
      | cons x ys =>
        have hx : memGet m a = some x := by simpa using hk 0 (by omega)
        have hys : memSlice m (a + 1) n = some ys := by
          refine (ih _ _).mpr ⟨by simpa using hl, ?_⟩
          intro k hk'
          have := hk (k + 1) (by omega)
          rwa [show a + (k + 1) = a + 1 + k by omega, List.getElem?_cons_succ] at this
        simp [hx, hys]

theorem memSlice_length {m : Memory α} {a n : Nat} {xs : List α} (h : memSlice m a n = some xs) : xs.length = n :=
  ((memSlice_eq_some m a n xs).mp h).1

/-- Read after write, a whole range. -/
theorem memSlice_memWrite_self (m : Memory α) (a : Nat) (xs : List α) :
    memSlice (memWrite m a xs) a xs.length = some xs := by
  refine (memSlice_eq_some _ _ _ _).mpr ⟨rfl, ?_⟩
  intro k hk
  rw [memGet_memWrite, if_pos (by omega)]
  congr 1
  omega

/-- A slice depends only on the offsets inside it. -/
theorem memSlice_congr {m m' : Memory α} {a n : Nat} (h : ∀ b, a ≤ b → b < a + n → memGet m b = memGet m' b) :
    memSlice m a n = memSlice m' a n := by
  induction n generalizing a with
  | zero => rfl
  | succ n ih =>
    rw [memSlice, memSlice, h a (by omega) (by omega), ih fun b h1 h2 => h b (by omega) (by omega)]

/-- A slice in two parts. -/
theorem memSlice_add (m : Memory α) (a i j : Nat) {xs ys : List α} (hx : memSlice m a i = some xs)
    (hy : memSlice m (a + i) j = some ys) : memSlice m a (i + j) = some (xs ++ ys) := by
  obtain ⟨hl, hk⟩ := (memSlice_eq_some _ _ _ _).mp hx
  obtain ⟨hl', hk'⟩ := (memSlice_eq_some _ _ _ _).mp hy
  refine (memSlice_eq_some _ _ _ _).mpr ⟨by simp [hl, hl'], ?_⟩
  intro k hk2
  by_cases h : k < i
  · rw [hk k h, List.getElem?_append_left (by omega)]
  · obtain ⟨q, rfl⟩ : ∃ q, k = i + q := ⟨k - i, by omega⟩
    rw [List.getElem?_append_right (by omega), ← Nat.add_assoc, hk' q (by omega), hl]
    congr 1
    omega

/-- Part of a slice. -/
theorem memSlice_sub {m : Memory α} {a n : Nat} {xs : List α} (h : memSlice m a n = some xs) {i j : Nat}
    (hij : i + j ≤ n) : memSlice m (a + i) j = some ((xs.drop i).take j) := by
  obtain ⟨hl, hk⟩ := (memSlice_eq_some _ _ _ _).mp h
  refine (memSlice_eq_some _ _ _ _).mpr ⟨by simp; omega, ?_⟩
  intro k hk2
  rw [Nat.add_assoc, hk (i + k) (by omega), List.getElem?_take_of_lt hk2, List.getElem?_drop]

theorem memGet_of_memSlice {m : Memory α} {n : Nat} {xs : List α} (h : memSlice m 0 n = some xs) {k : Nat}
    (hk : k < n) : memGet m k = xs[k]? := by
  simpa using ((memSlice_eq_some m 0 n xs).mp h).2 k hk

/-- Everything `MemRead` can answer. -/
theorem memRead_cases (b : Space) (m : Memory α) (valid a n : Nat) :
    (∃ xs, memRead b m valid a n = .ok xs ∧ a + n ≤ valid ∧ memSlice m a n = some xs) ∨
    (memRead b m valid a n = .error (.readUnwritten b) ∧ a + n ≤ valid ∧ memSlice m a n = none) ∨
    (memRead b m valid a n = .error (.readOutOfBounds b) ∧ valid < a + n) := by
  unfold memRead
  by_cases h : a + n ≤ valid
  · cases hs : memSlice m a n with
    | none => simp [h]
    | some xs => simp [h]
  · exact .inr (.inr ⟨by simp [h], by omega⟩)

theorem memRead_eq_ok {b : Space} {m : Memory α} {valid a n : Nat} {xs : List α} :
    memRead b m valid a n = .ok xs ↔ a + n ≤ valid ∧ memSlice m a n = some xs := by
  unfold memRead
  by_cases h : a + n ≤ valid
  · cases hs : memSlice m a n <;> simp [h]
  · simp [h]

theorem memReadOne_eq_ok {b : Space} {m : Memory α} {valid a : Nat} {x : α} :
    memReadOne b m valid a = .ok x ↔ a < valid ∧ memGet m a = some x := by
  unfold memReadOne
  by_cases h : a < valid
  · cases hs : memGet m a <;> simp [h]
  · simp [h]

/-! ### The one form -/

/-- Every offset of the list is above `a`. -/
def Above (a : Nat) (m : Memory α) : Prop := ∀ c ∈ m, a < c.1

theorem wf_cons (a : Nat) (x : α) (m : Memory α) : Memory.wf ((a, x) :: m) = true ↔ Above a m ∧ Memory.wf m = true := by
  induction m generalizing a x with
  | nil => simp [Memory.wf, Above]
  | cons c m ih =>
    obtain ⟨b, y⟩ := c
    rw [Memory.wf, Bool.and_eq_true, decide_eq_true_iff]
    constructor
    · rintro ⟨h1, h2⟩
      refine ⟨?_, h2⟩
      intro c hc
      rcases List.mem_cons.mp hc with rfl | hc
      · exact h1
      · exact h1.trans (((ih b y).mp h2).1 c hc)
    · rintro ⟨h1, h2⟩
      exact ⟨h1 (b, y) (by simp), h2⟩

theorem above_memSet {k a : Nat} {m : Memory α} (x : α) (hk : k < a) (hm : Above k m) : Above k (memSet m a x) := by
  induction m with
  | nil => intro c hc; simp [memSet] at hc; simp [hc, hk]
  | cons c m ih =>
    obtain ⟨b, y⟩ := c
    have hb : k < b := hm (b, y) (by simp)
    have hm' : Above k m := fun c hc => hm c (List.mem_cons_of_mem _ hc)
    intro c hc
    by_cases h1 : a < b
    · simp [memSet, h1] at hc
      rcases hc with rfl | rfl | hc
      exacts [hk, hb, hm' c hc]
    · by_cases h2 : a = b
      · subst h2
        simp [memSet] at hc
        rcases hc with rfl | hc
        exacts [hk, hm' c hc]
      · simp [memSet, h1, h2] at hc
        rcases hc with rfl | hc
        exacts [hb, ih hm' c hc]

/-- Storing one element keeps the one form. -/
theorem wf_memSet {m : Memory α} (a : Nat) (x : α) (h : Memory.wf m = true) : Memory.wf (memSet m a x) = true := by
  induction m with
  | nil => rfl
  | cons c m ih =>
    obtain ⟨b, y⟩ := c
    obtain ⟨hb, hm⟩ := (wf_cons b y m).mp h
    by_cases h1 : a < b
    · rw [memSet, if_pos h1]
      refine (wf_cons _ _ _).mpr ⟨?_, h⟩
      intro c hc
      rcases List.mem_cons.mp hc with rfl | hc
      · exact h1
      · exact h1.trans (hb c hc)
    · by_cases h2 : a = b
      · subst h2
        simp only [memSet, lt_irrefl, if_false, if_true]
        exact (wf_cons _ _ _).mpr ⟨hb, hm⟩
      · simp only [memSet, h1, h2, if_false]
        exact (wf_cons _ _ _).mpr ⟨above_memSet x (by omega) hb, ih hm⟩

/-- A write keeps the one form. -/
theorem wf_memWrite {m : Memory α} (a : Nat) (xs : List α) (h : Memory.wf m = true) :
    Memory.wf (memWrite m a xs) = true := by
  induction xs generalizing m a with
  | nil => exact h
  | cons x xs ih => exact ih (a + 1) (wf_memSet a x h)

/-- Every buffer of the reset state has the one form. -/
theorem reset_wf : Memory.wf State.reset.enc.iv = true ∧ Memory.wf State.reset.enc.ob = true ∧
    Memory.wf State.reset.dec.ib = true ∧ Memory.wf State.reset.dec.ov = true := ⟨rfl, rfl, rfl, rfl⟩

theorem memGet_of_above {a k : Nat} {m : Memory α} (h : Above a m) (hk : k ≤ a) : memGet m k = none := by
  induction m with
  | nil => rfl
  | cons c m ih =>
    obtain ⟨b, y⟩ := c
    have hb : a < b := h (b, y) (by simp)
    rw [memGet, if_neg (by omega)]
    exact ih fun c hc => h c (List.mem_cons_of_mem _ hc)

/-- Buffers in the one form that read the same everywhere are the same list. -/
theorem memory_ext {m m' : Memory α} (h : Memory.wf m = true) (h' : Memory.wf m' = true)
    (hg : ∀ a, memGet m a = memGet m' a) : m = m' := by
  induction m generalizing m' with
  | nil =>
    cases m' with
    | nil => rfl
    | cons c m' => simpa [memGet] using hg c.1
  | cons c m ih =>
    obtain ⟨a, x⟩ := c
    cases m' with
    | nil => simpa [memGet] using hg a
    | cons c' m' =>
      obtain ⟨b, y⟩ := c'
      obtain ⟨ha, hm⟩ := (wf_cons a x m).mp h
      obtain ⟨hb, hm'⟩ := (wf_cons b y m').mp h'
      have hab : a = b := by
        rcases lt_trichotomy a b with hlt | heq | hlt
        · have := hg a
          rw [memGet, if_pos rfl, memGet, if_neg (by omega), memGet_of_above hb hlt.le] at this
          cases this
        · exact heq
        · have := hg b
          rw [memGet, if_neg (by omega), memGet, if_pos rfl, memGet_of_above ha hlt.le] at this
          cases this
      subst hab
      have hxy : x = y := by simpa [memGet] using hg a
      subst hxy
      congr 1
      refine ih hm hm' fun k => ?_
      by_cases hk : k = a
      · subst hk; rw [memGet_of_above ha le_rfl, memGet_of_above hb le_rfl]
      · simpa [memGet, hk] using hg k

end Sys2Proof.Machine
end

