-- ==== Sys2Proof/Laws/State.lean ====
section
/-! SUPPORT. One lemma per field per update of the state. -/

namespace Sys2Proof.Machine

/-! ### The whole machine -/

@[simp] theorem State.withEnc_enc (s : State) (e : Enc) : (s.withEnc e).enc = e := rfl
@[simp] theorem State.withEnc_dec (s : State) (e : Enc) : (s.withEnc e).dec = s.dec := rfl
@[simp] theorem State.withEnc_par (s : State) (e : Enc) : (s.withEnc e).par = s.par := rfl
@[simp] theorem State.withEnc_turns (s : State) (e : Enc) : (s.withEnc e).turns = s.turns := rfl
@[simp] theorem State.withEnc_received (s : State) (e : Enc) : (s.withEnc e).received = s.received := rfl

@[simp] theorem State.withDec_enc (s : State) (d : Dec) : (s.withDec d).enc = s.enc := rfl
@[simp] theorem State.withDec_dec (s : State) (d : Dec) : (s.withDec d).dec = d := rfl
@[simp] theorem State.withDec_par (s : State) (d : Dec) : (s.withDec d).par = s.par := rfl
@[simp] theorem State.withDec_turns (s : State) (d : Dec) : (s.withDec d).turns = s.turns := rfl
@[simp] theorem State.withDec_received (s : State) (d : Dec) : (s.withDec d).received = s.received := rfl

@[simp] theorem State.withTurns_enc (s : State) (ts : List Turn) : (s.withTurns ts).enc = s.enc := rfl
@[simp] theorem State.withTurns_dec (s : State) (ts : List Turn) : (s.withTurns ts).dec = s.dec := rfl
@[simp] theorem State.withTurns_par (s : State) (ts : List Turn) : (s.withTurns ts).par = s.par := rfl
@[simp] theorem State.withTurns_turns (s : State) (ts : List Turn) : (s.withTurns ts).turns = ts := rfl
@[simp] theorem State.withTurns_received (s : State) (ts : List Turn) : (s.withTurns ts).received = s.received := rfl

@[simp] theorem State.receive_enc (s : State) (r : Reply) : (s.receive r).enc = s.enc := rfl
@[simp] theorem State.receive_dec (s : State) (r : Reply) : (s.receive r).dec = s.dec := rfl
@[simp] theorem State.receive_par (s : State) (r : Reply) : (s.receive r).par = s.par := rfl
@[simp] theorem State.receive_turns (s : State) (r : Reply) : (s.receive r).turns = s.turns := rfl
@[simp] theorem State.receive_received (s : State) (r : Reply) : (s.receive r).received = r :: s.received := rfl

@[simp] theorem takeTruncated_enc (need rem : Nat) (s : State) : (takeTruncated need rem s).enc = s.enc := rfl
@[simp] theorem takeTruncated_dec (need rem : Nat) (s : State) :
    (takeTruncated need rem s).dec = s.dec.raiseTruncated need rem := rfl
@[simp] theorem takeTruncated_par (need rem : Nat) (s : State) : (takeTruncated need rem s).par = s.par := rfl
@[simp] theorem takeTruncated_turns (need rem : Nat) (s : State) : (takeTruncated need rem s).turns = s.turns := rfl
@[simp] theorem takeTruncated_received (need rem : Nat) (s : State) :
    (takeTruncated need rem s).received = s.received := rfl

/-! ### The encoder unit -/

@[simp] theorem Enc.emit_ph (out : List Byte) (e : Enc) : (e.emit out).ph = e.ph := rfl
@[simp] theorem Enc.emit_n (out : List Byte) (e : Enc) : (e.emit out).n = e.n := rfl
@[simp] theorem Enc.emit_iv (out : List Byte) (e : Enc) : (e.emit out).iv = e.iv := rfl
@[simp] theorem Enc.emit_idx (out : List Byte) (e : Enc) : (e.emit out).idx = e.idx + 1 := rfl
@[simp] theorem Enc.emit_ob (out : List Byte) (e : Enc) : (e.emit out).ob = memWrite e.ob e.olen out := rfl
@[simp] theorem Enc.emit_olen (out : List Byte) (e : Enc) : (e.emit out).olen = e.olen + out.length := rfl

@[simp] theorem Enc.finish_ph (e : Enc) : e.finish.ph = .done := rfl
@[simp] theorem Enc.finish_n (e : Enc) : e.finish.n = e.n := rfl
@[simp] theorem Enc.finish_iv (e : Enc) : e.finish.iv = e.iv := rfl
@[simp] theorem Enc.finish_idx (e : Enc) : e.finish.idx = e.idx := rfl
@[simp] theorem Enc.finish_ob (e : Enc) : e.finish.ob = e.ob := rfl
@[simp] theorem Enc.finish_olen (e : Enc) : e.finish.olen = e.olen := rfl

@[simp] theorem Enc.start_ph (vs : List Value) (e : Enc) : (e.start vs).ph = .run := rfl
@[simp] theorem Enc.start_n (vs : List Value) (e : Enc) : (e.start vs).n = vs.length := rfl
@[simp] theorem Enc.start_iv (vs : List Value) (e : Enc) : (e.start vs).iv = memWrite e.iv 0 vs := rfl
@[simp] theorem Enc.start_idx (vs : List Value) (e : Enc) : (e.start vs).idx = 0 := rfl
@[simp] theorem Enc.start_ob (vs : List Value) (e : Enc) : (e.start vs).ob = e.ob := rfl
@[simp] theorem Enc.start_olen (vs : List Value) (e : Enc) : (e.start vs).olen = 0 := rfl

/-! ### The decoder unit -/

@[simp] theorem Dec.append_ph (k : Nat) (v : Value) (d : Dec) : (d.append k v).ph = d.ph := rfl
@[simp] theorem Dec.append_len (k : Nat) (v : Value) (d : Dec) : (d.append k v).len = d.len := rfl
@[simp] theorem Dec.append_ib (k : Nat) (v : Value) (d : Dec) : (d.append k v).ib = d.ib := rfl
@[simp] theorem Dec.append_cur (k : Nat) (v : Value) (d : Dec) : (d.append k v).cur = d.cur + k := rfl
@[simp] theorem Dec.append_ov (k : Nat) (v : Value) (d : Dec) : (d.append k v).ov = memSet d.ov d.ocnt v := rfl
@[simp] theorem Dec.append_ocnt (k : Nat) (v : Value) (d : Dec) : (d.append k v).ocnt = d.ocnt + 1 := rfl
@[simp] theorem Dec.append_err (k : Nat) (v : Value) (d : Dec) : (d.append k v).err = d.err := rfl
@[simp] theorem Dec.append_exp (k : Nat) (v : Value) (d : Dec) : (d.append k v).exp = d.exp := rfl
@[simp] theorem Dec.append_avl (k : Nat) (v : Value) (d : Dec) : (d.append k v).avl = d.avl := rfl

@[simp] theorem Dec.finish_ph (d : Dec) : d.finish.ph = .done := rfl
@[simp] theorem Dec.finish_len (d : Dec) : d.finish.len = d.len := rfl
@[simp] theorem Dec.finish_ib (d : Dec) : d.finish.ib = d.ib := rfl
@[simp] theorem Dec.finish_cur (d : Dec) : d.finish.cur = d.cur := rfl
@[simp] theorem Dec.finish_ov (d : Dec) : d.finish.ov = d.ov := rfl
@[simp] theorem Dec.finish_ocnt (d : Dec) : d.finish.ocnt = d.ocnt := rfl
@[simp] theorem Dec.finish_err (d : Dec) : d.finish.err = d.err := rfl
@[simp] theorem Dec.finish_exp (d : Dec) : d.finish.exp = d.exp := rfl
@[simp] theorem Dec.finish_avl (d : Dec) : d.finish.avl = d.avl := rfl

@[simp] theorem Dec.raiseTruncated_ph (e a : Nat) (d : Dec) : (d.raiseTruncated e a).ph = .done := rfl
@[simp] theorem Dec.raiseTruncated_len (e a : Nat) (d : Dec) : (d.raiseTruncated e a).len = d.len := rfl
@[simp] theorem Dec.raiseTruncated_ib (e a : Nat) (d : Dec) : (d.raiseTruncated e a).ib = d.ib := rfl
@[simp] theorem Dec.raiseTruncated_cur (e a : Nat) (d : Dec) : (d.raiseTruncated e a).cur = d.cur := rfl
@[simp] theorem Dec.raiseTruncated_ov (e a : Nat) (d : Dec) : (d.raiseTruncated e a).ov = d.ov := rfl
@[simp] theorem Dec.raiseTruncated_ocnt (e a : Nat) (d : Dec) : (d.raiseTruncated e a).ocnt = 0 := rfl
@[simp] theorem Dec.raiseTruncated_err (e a : Nat) (d : Dec) : (d.raiseTruncated e a).err = .truncatedRecord := rfl
@[simp] theorem Dec.raiseTruncated_exp (e a : Nat) (d : Dec) : (d.raiseTruncated e a).exp = e := rfl
@[simp] theorem Dec.raiseTruncated_avl (e a : Nat) (d : Dec) : (d.raiseTruncated e a).avl = a := rfl

@[simp] theorem Dec.start_ph (bs : List Byte) (d : Dec) : (d.start bs).ph = .run := rfl
@[simp] theorem Dec.start_len (bs : List Byte) (d : Dec) : (d.start bs).len = bs.length := rfl
@[simp] theorem Dec.start_ib (bs : List Byte) (d : Dec) : (d.start bs).ib = memWrite d.ib 0 bs := rfl
@[simp] theorem Dec.start_cur (bs : List Byte) (d : Dec) : (d.start bs).cur = 0 := rfl
@[simp] theorem Dec.start_ov (bs : List Byte) (d : Dec) : (d.start bs).ov = d.ov := rfl
@[simp] theorem Dec.start_ocnt (bs : List Byte) (d : Dec) : (d.start bs).ocnt = 0 := rfl
@[simp] theorem Dec.start_err (bs : List Byte) (d : Dec) : (d.start bs).err = .noError := rfl
@[simp] theorem Dec.start_exp (bs : List Byte) (d : Dec) : (d.start bs).exp = 0 := rfl
@[simp] theorem Dec.start_avl (bs : List Byte) (d : Dec) : (d.start bs).avl = 0 := rfl

end Sys2Proof.Machine
end

