-- ==== Sys2Proof/Laws/Ops.lean ====
section
/-! SUPPORT. Once for each shared operation, everything it can do. -/

namespace Sys2Proof.Machine

@[simp] theorem within_none (k : Nat) : within none k = true := rfl

theorem within_some (c k : Nat) : within (some c) k = true ↔ k ≤ c := by simp [within]

/-- A smaller count is within the same capacity. -/
theorem within_mono {cap : Option Nat} {j k : Nat} (h : within cap k = true) (hjk : j ≤ k) : within cap j = true := by
  cases cap with
  | none => rfl
  | some c => exact (within_some c j).mpr (hjk.trans ((within_some c k).mp h))

/-- Five bytes for each admitted value fit in `ENC.OB` (R27). -/
theorem within_obCapacity {p : Params} {n j : Nat} (h : within p.nmax n = true) (hj : j ≤ 5 * n) :
    within (obCapacity p) j = true := by
  unfold obCapacity
  cases hp : p.nmax with
  | none => rfl
  | some c =>
    rw [hp] at h
    have := (within_some c n).mp h
    exact (within_some _ _).mpr (by omega)

/-- When a value step completes, and with what. -/
theorem encRecord_eq_next {out : List Byte} {s t : State} :
    encRecord out s = .next t ↔
      s.enc.ph = .run ∧ s.enc.idx < s.enc.n ∧ within (obCapacity s.par) (s.enc.olen + out.length) = true ∧
      t = s.withEnc (s.enc.emit out) := by
  unfold encRecord
  by_cases h1 : s.enc.ph = .run
  · by_cases h2 : s.enc.idx < s.enc.n
    · by_cases h3 : within (obCapacity s.par) (s.enc.olen + out.length) = true
      · simp only [h1, h2, h3, ne_eq, not_true_eq_false, if_false, Bool.true_eq_false, Host.Outcome.next.injEq, true_and]
        exact eq_comm
      · simp [h1, h2, h3]
    · simp [h1, h2]
  · simp [h1]

theorem encRecord_not_refused {out : List Byte} {s : State} {r : Refusal} : encRecord out s ≠ .refused r := by
  unfold encRecord
  split
  · simp
  · split
    · simp
    · split <;> simp

/-- What a record step of the decoder can do: raise Truncated Record, or append and advance. -/
theorem decRecord_eq_next {need : Nat} {v : Value} {s t : State} :
    decRecord need v s = .next t ↔
      s.dec.ph = .run ∧ s.dec.cur < s.dec.len ∧
      ((s.dec.len - s.dec.cur < need ∧ t = takeTruncated need (s.dec.len - s.dec.cur) s) ∨
       (need ≤ s.dec.len - s.dec.cur ∧ within s.par.bmax (s.dec.ocnt + 1) = true ∧
        t = s.withDec (s.dec.append need v))) := by
  unfold decRecord
  by_cases h1 : s.dec.ph = .run
  · by_cases h2 : s.dec.cur < s.dec.len
    · by_cases h3 : s.dec.len - s.dec.cur < need
      · simp only [h1, h2, h3, Nat.not_le.mpr h3, ne_eq, not_true_eq_false, if_false, if_true, Host.Outcome.next.injEq,
          true_and, false_and, or_false]
        exact eq_comm
      · by_cases h4 : within s.par.bmax (s.dec.ocnt + 1) = true
        · simp only [h1, h2, h3, h4, Nat.not_lt.mp h3, ne_eq, not_true_eq_false, if_false, Bool.true_eq_false,
            Host.Outcome.next.injEq, true_and, false_and, false_or]
          exact eq_comm
        · simp [h1, h2, h3, h4]
    · simp [h1, h2]
  · simp [h1]

theorem decRecord_not_refused {need : Nat} {v : Value} {s : State} {r : Refusal} : decRecord need v s ≠ .refused r := by
  unfold decRecord
  split
  · simp
  · split
    · simp
    · split
      · simp
      · split <;> simp

/-- What a move of the host can do when it answers a next state. -/
theorem hostMove_next {m : HostMove} {s t : State} (h : hostMove m s = .next t) :
    (m = .reset ∧ t = { s with enc := Enc.reset, dec := Dec.reset }) ∨
    (∃ vs, m = .encStart vs ∧ s.enc.ph ≠ .run ∧ within s.par.nmax vs.length = true ∧ t = s.withEnc (s.enc.start vs)) ∨
    (∃ bs, m = .encRead ∧ s.enc.ph = .done ∧ memSlice s.enc.ob 0 s.enc.olen = some bs ∧ t = s.receive (.encoded bs)) ∨
    (∃ bs, m = .decStart bs ∧ s.dec.ph ≠ .run ∧ within s.par.bmax bs.length = true ∧ t = s.withDec (s.dec.start bs)) ∨
    (∃ vs, m = .decRead ∧ s.dec.ph = .done ∧ memSlice s.dec.ov 0 s.dec.ocnt = some vs ∧
      t = s.receive (.decoded s.dec.err s.dec.exp s.dec.avl vs)) := by
  cases m with
  | reset => simp only [hostMove, hostReset] at h; cases h; simp
  | encStart vs =>
    simp only [hostMove, hostEncStart] at h
    split at h
    · cases h
    · split at h
      · cases h
      · rename_i h1 h2
        cases h
        exact .inr (.inl ⟨vs, rfl, h1, by simpa using h2, rfl⟩)
  | encRead =>
    simp only [hostMove, hostEncRead] at h
    split at h
    · cases h
    · split at h
      · rename_i bs hb
        cases h
        have := (memRead_eq_ok.mp hb).2
        simp_all
      · cases h
  | decStart bs =>
    simp only [hostMove, hostDecStart] at h
    split at h
    · cases h
    · split at h
      · cases h
      · rename_i h1 h2
        cases h
        exact .inr (.inr (.inr (.inl ⟨bs, rfl, h1, by simpa using h2, rfl⟩)))
  | decRead =>
    simp only [hostMove, hostDecRead] at h
    split at h
    · cases h
    · split at h
      · rename_i bs hb
        cases h
        have := (memRead_eq_ok.mp hb).2
        simp_all
      · cases h

/-- What the encoder fetches. -/
theorem fetchEnc_cases (s : State) :
    (s.enc.ph ≠ .run ∧ fetchEnc s = .stop (.unitNotRunning .enc)) ∨
    (s.enc.ph = .run ∧ s.enc.idx = s.enc.n ∧ fetchEnc s = .finish) ∨
    (∃ v, s.enc.ph = .run ∧ s.enc.idx < s.enc.n ∧ memGet s.enc.iv s.enc.idx = some v ∧
      fetchEnc s = .record (selectRecord v)) ∨
    (∃ f, s.enc.ph = .run ∧ s.enc.idx ≠ s.enc.n ∧ fetchEnc s = .stop f) := by
  unfold fetchEnc
  by_cases hp : s.enc.ph = .run
  · by_cases hi : s.enc.idx = s.enc.n
    · simp [hp, hi]
    · cases hm : memReadOne .iv s.enc.iv s.enc.n s.enc.idx with
      | error f => simp [hp, hi]
      | ok v => have := memReadOne_eq_ok.mp hm; simp_all
  · simp [hp]

/-- A whole record decodes, to a well-formed instruction whose bytes it is. -/
theorem decode_whole {t : Byte} {payload : List Byte} (h : payload.length = recLen t - 1) :
    ∃ i, decode (t :: payload) = .record i [] ∧ i.wf = true ∧ encode i = t :: payload := by
  by_cases h1 : t = tagLarge
  · subst h1
    match payload, h with
    | [p0, p1, p2, p3], _ => exact ⟨.decLarge p0 p1 p2 p3, by simp [decode], rfl, rfl⟩
  · by_cases h2 : t = tagMedium
    · subst h2
      match payload, h with
      | [p0, p1], _ => exact ⟨.decMedium p0 p1, by simp [decode, h1], rfl, rfl⟩
    · rw [recLen, if_neg h1, if_neg h2] at h
      have : payload = [] := List.length_eq_zero_iff.mp h
      subst this
      exact ⟨.decSmall t, by simp [decode, h1, h2], by simp [Instr.wf, h1, h2], rfl⟩

theorem recLen_pos (t : Byte) : 1 ≤ recLen t := by
  unfold recLen
  split_ifs <;> decide

theorem recLen_le (t : Byte) : recLen t ≤ 5 := by
  unfold recLen
  split_ifs <;> decide

/-- The payload of a record that fits: the instruction its bytes decode to, or a read that stops. -/
theorem fetchPayload_cases (t : Byte) (s : State) :
    (∃ i payload, memRead .ib s.dec.ib s.dec.len (s.dec.cur + 1) (recLen t - 1) = .ok payload ∧
      decode (t :: payload) = .record i [] ∧ i.wf = true ∧ encode i = t :: payload ∧ fetchPayload t s = .record i) ∨
    (∃ f, memRead .ib s.dec.ib s.dec.len (s.dec.cur + 1) (recLen t - 1) = .error f ∧ fetchPayload t s = .stop f) := by
  unfold fetchPayload
  cases hm : memRead .ib s.dec.ib s.dec.len (s.dec.cur + 1) (recLen t - 1) with
  | error f => simp
  | ok payload =>
    obtain ⟨i, hd, hw, he⟩ := decode_whole (memSlice_length (memRead_eq_ok.mp hm).2)
    left
    exact ⟨i, payload, rfl, hd, hw, he, by simp [hd]⟩

/-- What the decoder's framer finds. -/
theorem fetchDec_cases (s : State) :
    (s.dec.ph ≠ .run ∧ fetchDec s = .stop (.unitNotRunning .dec)) ∨
    (s.dec.ph = .run ∧ s.dec.cur = s.dec.len ∧ fetchDec s = .finish) ∨
    (∃ t, s.dec.ph = .run ∧ s.dec.cur < s.dec.len ∧ memGet s.dec.ib s.dec.cur = some t ∧
      s.dec.len - s.dec.cur < recLen t ∧ fetchDec s = .short (recLen t) (s.dec.len - s.dec.cur)) ∨
    (∃ t i payload, s.dec.ph = .run ∧ s.dec.cur + recLen t ≤ s.dec.len ∧ memGet s.dec.ib s.dec.cur = some t ∧
      memSlice s.dec.ib (s.dec.cur + 1) (recLen t - 1) = some payload ∧ decode (t :: payload) = .record i [] ∧
      i.wf = true ∧ encode i = t :: payload ∧ fetchDec s = .record i) ∨
    (∃ f, s.dec.ph = .run ∧ s.dec.cur ≠ s.dec.len ∧ fetchDec s = .stop f) := by
  by_cases hp : s.dec.ph = .run
  swap
  · left; exact ⟨hp, by simp [fetchDec, hp]⟩
  by_cases hc : s.dec.cur = s.dec.len
  · right; left; exact ⟨hp, hc, by simp [fetchDec, hp, hc]⟩
  cases hm : memReadOne .ib s.dec.ib s.dec.len s.dec.cur with
  | error f => right; right; right; right; exact ⟨f, hp, hc, by simp [fetchDec, hp, hc, hm]⟩
  | ok t =>
    obtain ⟨hlt, hg⟩ := memReadOne_eq_ok.mp hm
    by_cases hr : s.dec.len - s.dec.cur < recLen t
    · right; right; left; exact ⟨t, hp, hlt, hg, hr, by simp [fetchDec, hp, hc, hm, hr]⟩
    · have hf : fetchDec s = fetchPayload t s := by simp [fetchDec, hp, hc, hm, hr]
      rcases fetchPayload_cases t s with ⟨i, payload, hpl, hd, hw, he, hi⟩ | ⟨f, -, hi⟩
      · right; right; right; left
        exact ⟨t, i, payload, hp, by omega, hg, (memRead_eq_ok.mp hpl).2, hd, hw, he, hf.trans hi⟩
      · right; right; right; right; exact ⟨f, hp, hc, hf.trans hi⟩

/-- Who moves next. -/
theorem nextTurn_cases (s : State) :
    (∃ t ts, s.turns = t :: ts ∧ nextTurn s = some (t, s.withTurns ts)) ∨
    (s.turns = [] ∧ s.enc.ph = .run ∧ nextTurn s = some (.unit .enc, s)) ∨
    (s.turns = [] ∧ s.enc.ph ≠ .run ∧ s.dec.ph = .run ∧ nextTurn s = some (.unit .dec, s)) ∨
    (s.turns = [] ∧ s.enc.ph ≠ .run ∧ s.dec.ph ≠ .run ∧ nextTurn s = none) := by
  unfold nextTurn
  cases hts : s.turns with
  | cons t ts => simp
  | nil =>
    by_cases h1 : s.enc.ph = .run
    · simp [h1]
    · by_cases h2 : s.dec.ph = .run <;> simp [h1, h2]

end Sys2Proof.Machine
end

