-- ==== Sys2Proof/Laws/PerInstr.lean ====
section
/-! SUPPORT. Facts made per instruction: the bytes of each record operation. -/

namespace Sys2Proof.Laws.RecordBytes

open Sys2Proof.Machine

/-- The bytes of a well-formed record operation have the length its first byte gives (30_encoding.md R84), which is the
length of its row. -/
def Statement (i : Instr) : Prop :=
  i.wf = true → ∃ t payload, encode i = t :: payload ∧ (encode i).length = recLen t

theorem decSmall (val8 : Byte) : Statement (.decSmall val8) := by
  intro h
  simp [Instr.wf] at h
  exact ⟨val8, [], rfl, by simp [encode, recLen, h]⟩

theorem decMedium (p0 p1 : Byte) : Statement (.decMedium p0 p1) := fun _ => ⟨tagMedium, [p0, p1], rfl, rfl⟩

theorem decLarge (p0 p1 p2 p3 : Byte) : Statement (.decLarge p0 p1 p2 p3) := fun _ =>
  ⟨tagLarge, [p0, p1, p2, p3], rfl, rfl⟩

theorem encSmall (v : Value) : Statement (.encSmall v) := by
  intro h
  obtain ⟨h1, h2⟩ := (fitsSmall_iff v).mp h
  refine ⟨u8 v.toInt, [], rfl, ?_⟩
  have hne : ∀ t : Byte, t.toNat = 128 ∨ t.toNat = 129 → u8 v.toInt ≠ t := by
    intro t ht he
    have := congrArg BitVec.toNat he
    simp only [u8, BitVec.toNat_ofNat] at this
    simp only [smallMin, smallMax] at h1 h2
    omega
  simp [encode, recLen, hne tagLarge (.inr rfl), hne tagMedium (.inl rfl)]

theorem encMedium (v : Value) : Statement (.encMedium v) := fun _ => ⟨tagMedium, split16 v, rfl, rfl⟩

theorem encLarge (v : Value) : Statement (.encLarge v) := fun _ => ⟨tagLarge, split32 v, rfl, rfl⟩

end Sys2Proof.Laws.RecordBytes
end

