-- ==== Sys2Proof/Laws/Step.lean ====
section
/-! SUPPORT. Once, everything a step can do: each record operation over the shared step of its unit, each unit's step, and
the machine's step. -/

namespace Sys2Proof.Machine

/-- A decoder operation is the shared record step, with the length of its record and the value it carries. -/
theorem exec_dec {i : Instr} (h : isDec i = true) (s : State) :
    exec i s = decRecord (encode i).length (carried i) s := by
  cases i with
  | decSmall _ => rfl
  | decMedium _ _ => rfl
  | decLarge _ _ _ _ => rfl
  | encSmall _ => cases h
  | encMedium _ => cases h
  | encLarge _ => cases h

/-- An encoder operation is the shared value step, with the bytes of its record. -/
theorem exec_enc {i : Instr} (h : isDec i = false) (s : State) : exec i s = encRecord (encode i) s := by
  cases i with
  | decSmall _ => cases h
  | decMedium _ _ => cases h
  | decLarge _ _ _ _ => cases h
  | encSmall _ => rfl
  | encMedium _ => rfl
  | encLarge _ => rfl

@[simp] theorem isDec_selectRecord (v : Value) : isDec (selectRecord v) = false := by
  unfold selectRecord
  split_ifs <;> rfl

/-- A whole record decodes to a decoder operation. -/
theorem isDec_of_decode_whole {t : Byte} {payload : List Byte} {i : Instr}
    (h : decode (t :: payload) = .record i []) : isDec i = true := by
  simp only [decode] at h
  split at h
  · split at h
    · cases h; rfl
    · cases h
  · split at h
    · split at h
      · cases h; rfl
      · cases h
    · cases h; rfl

/-- No record operation is refused. -/
theorem exec_not_refused (i : Instr) (s : State) (r : Refusal) : exec i s ≠ .refused r := by
  cases h : isDec i with
  | true => rw [exec_dec h]; exact decRecord_not_refused
  | false => rw [exec_enc h]; exact encRecord_not_refused

/-- What a step of the encoder can do (R136): the finishing step, or a value step. -/
theorem unitStep_enc_next {s t : State} (h : unitStep .enc s = .next t) :
    s.enc.ph = .run ∧
    ((s.enc.idx = s.enc.n ∧ t = s.withEnc s.enc.finish) ∨
     ∃ v, s.enc.idx < s.enc.n ∧ memGet s.enc.iv s.enc.idx = some v ∧
       within (obCapacity s.par) (s.enc.olen + (encode (selectRecord v)).length) = true ∧
       t = s.withEnc (s.enc.emit (encode (selectRecord v)))) := by
  unfold unitStep at h
  rcases fetchEnc_cases s with ⟨-, hf⟩ | ⟨h1, h2, hf⟩ | ⟨v, h1, h2, h3, hf⟩ | ⟨f, -, -, hf⟩ <;>
    simp only [fetch, hf] at h
  · cases h
  · cases h; exact ⟨h1, .inl ⟨h2, rfl⟩⟩
  · rw [exec_enc (isDec_selectRecord v)] at h
    obtain ⟨-, h4, h5, h6⟩ := encRecord_eq_next.mp h
    exact ⟨h1, .inr ⟨v, h4, h3, h5, h6⟩⟩
  · cases h

/-- What a step of the decoder can do (R163): the finishing step, the error step, or a record step on the instruction
whose bytes lie at the cursor. -/
theorem unitStep_dec_next {s t : State} (h : unitStep .dec s = .next t) :
    s.dec.ph = .run ∧
    ((s.dec.cur = s.dec.len ∧ t = s.withDec s.dec.finish) ∨
     (∃ b, s.dec.cur < s.dec.len ∧ memGet s.dec.ib s.dec.cur = some b ∧ s.dec.len - s.dec.cur < recLen b ∧
       t = takeTruncated (recLen b) (s.dec.len - s.dec.cur) s) ∨
     ∃ i, isDec i = true ∧ i.wf = true ∧ s.dec.cur + (encode i).length ≤ s.dec.len ∧
       memSlice s.dec.ib s.dec.cur (encode i).length = some (encode i) ∧
       within s.par.bmax (s.dec.ocnt + 1) = true ∧
       t = s.withDec (s.dec.append (encode i).length (carried i))) := by
  unfold unitStep at h
  rcases fetchDec_cases s with ⟨-, hf⟩ | ⟨h1, h2, hf⟩ | ⟨b, h1, h2, h3, h4, hf⟩ |
      ⟨b, i, payload, h1, h2, h3, h4, h5, h6, h7, hf⟩ | ⟨f, -, -, hf⟩ <;>
    simp only [fetch, hf] at h
  · cases h
  · cases h; exact ⟨h1, .inl ⟨h2, rfl⟩⟩
  · cases h; exact ⟨h1, .inr (.inl ⟨b, h2, h3, h4, rfl⟩)⟩
  · have hi := isDec_of_decode_whole h5
    have hpos := recLen_pos b
    have hlen : (encode i).length = recLen b := by
      rw [h7, List.length_cons, memSlice_length h4]; omega
    rw [exec_dec hi] at h
    rcases (decRecord_eq_next.mp h).2.2 with ⟨hlt, -⟩ | ⟨-, hcap, ht⟩
    · omega
    · refine ⟨h1, .inr (.inr ⟨i, hi, h6, by omega, ?_, hcap, ht⟩)⟩
      have := memSlice_add s.dec.ib s.dec.cur 1 (recLen b - 1) (xs := [b]) (by simp [memSlice, h3]) h4
      rw [hlen, h7]
      rwa [show 1 + (recLen b - 1) = recLen b by omega] at this
  · cases h

/-- What a step of the machine can do: nothing when nobody has a turn, a host's move, or a unit's step. -/
theorem step_cases (s : State) :
    (s.turns = [] ∧ s.enc.ph ≠ .run ∧ s.dec.ph ≠ .run ∧ step s = .next s) ∨
    (∃ m ts, s.turns = .host m :: ts ∧ step s = hostMove m (s.withTurns ts)) ∨
    (∃ u s', nextTurn s = some (.unit u, s') ∧ step s = unitStep u s' ∧
      ((∃ ts, s.turns = .unit u :: ts ∧ s' = s.withTurns ts) ∨ (s.turns = [] ∧ s' = s))) := by
  rcases nextTurn_cases s with ⟨t, ts, h1, h2⟩ | ⟨h1, h2, h3⟩ | ⟨h1, h2, h3, h4⟩ | ⟨h1, h2, h3, h4⟩
  · cases t with
    | host m => exact .inr (.inl ⟨m, ts, h1, by simp [step, h2]⟩)
    | unit u => exact .inr (.inr ⟨u, _, h2, by simp [step, h2], .inl ⟨ts, h1, rfl⟩⟩)
  · exact .inr (.inr ⟨.enc, s, h3, by simp [step, h3], .inr ⟨h1, rfl⟩⟩)
  · exact .inr (.inr ⟨.dec, s, h4, by simp [step, h4], .inr ⟨h1, rfl⟩⟩)
  · exact .inl ⟨h1, h2, h3, by simp [step, h4]⟩

end Sys2Proof.Machine
end

