-- ==== Sys2Proof/Tests/Slice0.lean ====
section
/-! SUPPORT. Our own tests: the well-formedness smoke test, words written out from the formats, one step of each record
operation, and a witness for every statement that has hypotheses. Expected values come from spec/95_test_vectors.md (ids
in brackets) or from hand calculation by the rule named. -/

namespace Sys2Proof.Tests.Slice0

open Sys2Proof Sys2Proof.Machine

/-! ### Helpers -/

/-- The next state, if there is one. -/
def after (o : Host.Outcome State Fault Refusal) : Option State :=
  match o with
  | .next s => some s
  | .fault _ => none
  | .refused _ => none

/-- The fault, if there is one. -/
def faultOf (o : Host.Outcome State Fault Refusal) : Option Fault :=
  match o with
  | .next _ => none
  | .fault f => some f
  | .refused _ => none

/-- The refusal, if there is one. -/
def refusalOf (o : Host.Outcome State Fault Refusal) : Option Refusal :=
  match o with
  | .next _ => none
  | .fault _ => none
  | .refused r => some r

/-- The machine after reset and `ENC.start`, its next turn the encoder's. -/
def encStarted (vs : List Int) : State :=
  (State.reset.withEnc (Enc.reset.start (vs.map toValue))).withTurns [.unit .enc]

/-- The machine after reset and `DEC.start`, its next turn the decoder's. -/
def decStarted (bs : List Byte) : State :=
  (State.reset.withDec (Dec.reset.start bs)).withTurns [.unit .dec]

/-- The same with the cursor moved on. -/
def decAt (bs : List Byte) (cur ocnt : Nat) : State :=
  let s := decStarted bs
  s.withDec { s.dec with cur := cur, ocnt := ocnt }

/-- A machine whose host has this move next. -/
def hostNext (m : HostMove) : State := State.reset.withTurns [.host m]

/-- A build of the block with small capacities. -/
def bounded (s : State) : State := { s with par := { nmax := some 1, bmax := some 2 } }

/-! ### Well-formedness: an ill-formed term for each check, and the nearest well-formed one -/

theorem test_wf_decSmall_medium_tag : (Instr.decSmall 0x80#8).wf = false := by decide
theorem test_wf_decSmall_large_tag : (Instr.decSmall 0x81#8).wf = false := by decide
theorem test_wf_decSmall_next : (Instr.decSmall 0x82#8).wf = true ∧ (Instr.decSmall 0x7F#8).wf = true := by decide
theorem test_wf_encSmall_high : (Instr.encSmall (toValue 128)).wf = false := by decide
theorem test_wf_encSmall_low : (Instr.encSmall (toValue (-127))).wf = false := by decide
theorem test_wf_encMedium_small : (Instr.encMedium (toValue 127)).wf = false := by decide
theorem test_wf_encMedium_high : (Instr.encMedium (toValue 32768)).wf = false := by decide
theorem test_wf_encLarge_small : (Instr.encLarge (toValue (-126))).wf = false := by decide
theorem test_wf_encLarge_medium : (Instr.encLarge (toValue (-32768))).wf = false := by decide

/-! ### Primitives [P-1 .. P-11, B-12, B-27, G16-13, G32-12] -/

theorem test_sint8 :
    [0x00#8, 0x7F#8, 0x80#8, 0x81#8, 0x82#8, 0x9C#8, 0xFF#8].map sint8 = [0, 127, -128, -127, -126, -100, -1] := by
  decide
theorem test_u8 : [0, 127, -128, -127, -126, -100, -1].map u8 =
    [0x00#8, 0x7F#8, 0x80#8, 0x81#8, 0x82#8, 0x9C#8, 0xFF#8] := by decide
theorem test_split32_minus_1000 : split32 (toValue (-1000)) = [0x18#8, 0xFC#8, 0xFF#8, 0xFF#8] := by decide
theorem test_split32_least : split32 (toValue (-2147483648)) = [0x00#8, 0x00#8, 0x00#8, 0x80#8] := by decide
theorem test_split16_medium_least : split16 (toValue (-32768)) = [0x00#8, 0x80#8] := by decide
theorem test_gather16_tags_as_data : gather16 0x80#8 0x81#8 = -32384 := by decide
theorem test_gather32_sign : gather32 0xFF#8 0xFF#8 0xFF#8 0x80#8 = -2130706433 := by decide

/-! ### Words, written out bit by bit from the formats S, M and L (R81, R82, R83) -/

theorem test_decode_small_word : decode [0b10011100#8] = .record (.decSmall 0x9C#8) [] := by decide
theorem test_decode_medium_word : decode [0b10000000#8, 0b11101000#8, 0b00000011#8] =
    .record (.decMedium 0xE8#8 0x03#8) [] := by decide
theorem test_decode_large_word : decode [0b10000001#8, 0b01111000#8, 0b01010110#8, 0b00110100#8, 0b00010010#8] =
    .record (.decLarge 0x78#8 0x56#8 0x34#8 0x12#8) [] := by decide
theorem test_encode_encSmall : encode (.encSmall (toValue (-126))) = [0b10000010#8] := by decide
theorem test_encode_encMedium : encode (.encMedium (toValue (-127))) = [0b10000000#8, 0b10000001#8, 0b11111111#8] := by
  decide
theorem test_encode_encLarge : encode (.encLarge (toValue (-32769))) =
    [0b10000001#8, 0b11111111#8, 0b01111111#8, 0b11111111#8, 0b11111111#8] := by decide
theorem test_decode_truncated : decode [0x81#8, 0x02#8, 0x03#8, 0x04#8] = .truncated 5 4 := by decide
theorem test_decode_empty : decode [] = .endOfBuffer := by decide

/-- The rows of spec/opcode_table.json, their open bits zero; an ENC row whose payload no value of the row has stands
with the row's least positive value (log 11). -/
theorem test_table_words :
    decodeTableWord 8 0x00 = some (.decSmall 0x00#8) ∧ decodeTableWord 8 0x80 = some (.decMedium 0x00#8 0x00#8) ∧
    decodeTableWord 8 0x81 = some (.decLarge 0x00#8 0x00#8 0x00#8 0x00#8) ∧
    decodeTableWord 24 0x800000 = some (.encMedium (toValue 128)) ∧
    decodeTableWord 40 0x8100000000 = some (.encLarge (toValue 32768)) := by decide
theorem test_table_word_decMedium : decodeTableWord 24 0x03E880 = some (.decMedium 0xE8#8 0x03#8) := by decide
theorem test_table_word_encMedium : decodeTableWord 24 0x80E803 = some (.encMedium (toValue 1000)) := by decide
theorem test_table_word_encLarge : decodeTableWord 40 0x816079FEFF = some (.encLarge 0xFFFE7960#32) := by decide
theorem test_fetch_word_dec : after (step (State.reset.withFetchWord 8 0x80)) =
    after (exec (.decMedium 0x00#8 0x00#8) ((State.reset.withFetchWord 8 0x80).withTurns [])) ∧
    (after (step (State.reset.withFetchWord 8 0x80))).isSome = true := by decide
theorem test_fetch_word_enc : after (step (State.reset.withFetchWord 24 0x80E803)) =
    after (exec (.encMedium (toValue 1000)) ((State.reset.withFetchWord 24 0x80E803).withTurns [])) ∧
    (after (step (State.reset.withFetchWord 24 0x80E803))).isSome = true := by decide

/-! ### One step of each record operation -/

/-- [E-14] -/
theorem test_encSmall_step : (after (step (encStarted [-126]))).map (fun t => (memSlice t.enc.ob 0 1, t.enc.olen, t.enc.idx)) =
    some (some [0x82#8], 1, 1) := by decide
/-- [E-15], the value the source's literal gets wrong (90_conflicts.md C1). -/
theorem test_encMedium_step : (after (step (encStarted [-127]))).map (fun t => (memSlice t.enc.ob 0 3, t.enc.olen, t.enc.idx)) =
    some (some [0x80#8, 0x81#8, 0xFF#8], 3, 1) := by decide
/-- [E-35] (90_conflicts.md C2) -/
theorem test_encMedium_least : (after (step (encStarted [-32768]))).map (fun t => memSlice t.enc.ob 0 3) =
    some (some [0x80#8, 0x00#8, 0x80#8]) := by decide
/-- [E-59] -/
theorem test_encLarge_step : (after (step (encStarted [-2147483648]))).map
    (fun t => (memSlice t.enc.ob 0 5, t.enc.olen, t.enc.idx)) =
    some (some [0x81#8, 0x00#8, 0x00#8, 0x00#8, 0x80#8], 5, 1) := by decide
/-- [R-5] -/
theorem test_decSmall_step : (after (step (decStarted [0x9C#8]))).map (fun t => (memGet t.dec.ov 0, t.dec.ocnt, t.dec.cur)) =
    some (some (toValue (-100)), 1, 1) := by decide
/-- [R-18], tag bytes as data. -/
theorem test_decMedium_step : (after (step (decStarted [0x80#8, 0x80#8, 0x81#8]))).map
    (fun t => (memGet t.dec.ov 0, t.dec.ocnt, t.dec.cur)) = some (some (toValue (-32384)), 1, 3) := by decide
/-- [R-14], a record that is not canonical. -/
theorem test_decMedium_noncanonical : (after (step (decStarted [0x80#8, 0x05#8, 0x00#8]))).map
    (fun t => memGet t.dec.ov 0) = some (some (toValue 5)) := by decide
/-- [R-26] -/
theorem test_decLarge_step : (after (step (decStarted [0x81#8, 0x60#8, 0x79#8, 0xFE#8, 0xFF#8]))).map
    (fun t => (memGet t.dec.ov 0, t.dec.ocnt, t.dec.cur)) = some (some (toValue (-100000)), 1, 5) := by decide
/-- [T-9], the last step. -/
theorem test_error_step : (after (step (decAt [0x05#8, 0xFF#8, 0x81#8, 0x01#8, 0x02#8] 2 2))).map
    (fun t => (t.dec.err, t.dec.exp, t.dec.avl, t.dec.ocnt, t.dec.cur, t.dec.ph)) =
    some (.truncatedRecord, 5, 3, 0, 2, .done) := by decide
/-- [T-1] -/
theorem test_error_step_medium : (after (step (decStarted [0x80#8]))).map (fun t => (t.dec.exp, t.dec.avl)) =
    some (3, 1) := by decide
/-- [U-7], [U-8] -/
theorem test_finishing_steps : (after (step (decStarted []))).map (fun t => (t.dec.ph, t.dec.err)) = some (.done, .noError) ∧
    (after (step (encStarted []))).map (fun t => (t.enc.ph, t.enc.olen)) = some (.done, 0) := by decide
theorem test_idle_machine_stays : after (step State.reset) = some State.reset := by decide
theorem test_unit_not_running : faultOf (step (State.reset.withTurns [.unit .dec])) = some (.unitNotRunning .dec) := by
  decide

/-! ### The host's moves -/

theorem test_start_too_long : refusalOf (step (bounded (hostNext (.encStart [0#32, 1#32])))) = some (.startTooLong .enc) ∧
    (after (step (bounded (hostNext (.encStart [0#32]))))).isSome = true := by decide
theorem test_start_while_running : refusalOf (step ((decStarted []).withTurns [.host (.decStart [])])) =
    some (.startWhileRunning .dec) := by decide
theorem test_read_not_done : refusalOf (step (hostNext .decRead)) = some (.readNotDone .dec) := by decide
/-- [U-9]: reset in RUN. -/
theorem test_reset_abandons : (after (step ((encStarted [5]).withTurns [.host .reset]))).map
    (fun t => (t.enc.ph, t.enc.n, t.enc.idx)) = some (.idle, 0, 0) := by decide

/-- A decoder that has ended with an error (T-2): DONE, its output empty. -/
def decFailed : State :=
  let s := decStarted [0x80#8, 0x02#8]
  (s.withDec (s.dec.raiseTruncated 3 2)).withTurns []

/-- [U-5]: an error does not outlive the next start. -/
theorem test_start_clears_error : (after (step (decFailed.withTurns [.host (.decStart [0x7F#8])]))).map
    (fun t => (t.dec.err, t.dec.exp, t.dec.avl, t.dec.ph)) = some (.noError, 0, 0, .run) := by decide
theorem test_read_of_error : (after (step (decFailed.withTurns [.host .decRead]))).map (fun t => t.received) =
    some [.decoded .truncatedRecord 3 2 []] := by decide

/-! ### The closed-form functions [X-4, Q-6] -/

theorem test_encodeSeq : encodeSeq ([-126, -127, -128, -129].map toValue) =
    [0x82#8, 0x80#8, 0x81#8, 0xFF#8, 0x80#8, 0x80#8, 0xFF#8, 0x80#8, 0x7F#8, 0xFF#8] := by decide
theorem test_decodeBuf : decodeBuf [0x05#8, 0x80#8, 0x81#8, 0xFF#8, 0x81#8, 0x00#8, 0x80#8, 0x00#8, 0x00#8] =
    .ok ([5, -127, 32768].map toValue) := by decide
theorem test_decodeBuf_cut : decodeBuf [0x05#8, 0x80#8, 0x81#8, 0xFF#8, 0x81#8, 0x00#8] = .err 5 2 := by decide

/-! ### Witnesses: states and operands that meet the hypotheses of each statement -/

theorem witness_SignReinterpretationInvertsLowByte : (-128 : Int) ≤ -128 ∧ (-128 : Int) ≤ 127 ∧ (127 : Int) ≤ 127 := by decide

theorem witness_MarshallerSplitGatherInverse :
    (-32768 ≤ (toValue (-32768)).toInt ∧ (toValue (-32768)).toInt ≤ 32767 ∧
      split16 (toValue (-32768)) = [0x00#8, 0x80#8]) ∧
    (-32768 ≤ (toValue 32767).toInt ∧ (toValue 32767).toInt ≤ 32767 ∧ split16 (toValue 32767) = [0xFF#8, 0x7F#8]) ∧
    split32 (toValue (-2147483648)) = [0x00#8, 0x00#8, 0x00#8, 0x80#8] := by decide

theorem witness_DecodeOfEncodedRecord :
    ((Instr.decSmall 0x82#8).wf = true ∧ isDec (.decSmall 0x82#8) = true) ∧
    ((Instr.encSmall (toValue (-126))).wf = true ∧ isDec (.encSmall (toValue (-126))) = false) ∧
    ((Instr.encMedium (toValue (-127))).wf = true ∧ isDec (.encMedium (toValue (-127))) = false) ∧
    ((Instr.encLarge (toValue 32768)).wf = true ∧ isDec (.encLarge (toValue 32768)) = false) := by decide

theorem witness_EncodeOfDecodedRecord :
    decode [0x80#8, 0x05#8, 0x00#8, 0x07#8] = .record (.decMedium 0x05#8 0x00#8) [0x07#8] ∧
    ([0x05#8, 0x00#8] : List Byte).length = recLen 0x80#8 - 1 ∧ ([] : List Byte).length = recLen 0x82#8 - 1 ∧
    ([0#8, 0#8, 0#8, 0#8] : List Byte).length = recLen 0x81#8 - 1 := by decide

theorem witness_DecSmallAppendsSignedByte :
    (Instr.decSmall 0x82#8).wf = true ∧ (bounded (decAt [0x05#8, 0x82#8] 1 1)).dec.ph = .run ∧
    (bounded (decAt [0x05#8, 0x82#8] 1 1)).dec.cur < (bounded (decAt [0x05#8, 0x82#8] 1 1)).dec.len ∧
    within (bounded (decAt [0x05#8, 0x82#8] 1 1)).par.bmax ((bounded (decAt [0x05#8, 0x82#8] 1 1)).dec.ocnt + 1) = true ∧
    memGet (bounded (decAt [0x05#8, 0x82#8] 1 1)).dec.ib (bounded (decAt [0x05#8, 0x82#8] 1 1)).dec.cur = some 0x82#8 := by
  decide

theorem witness_DecMediumAppendsGatheredPayload :
    ((decStarted [0x80#8, 0x00#8, 0x80#8]).dec.ph = .run ∧
      (decStarted [0x80#8, 0x00#8, 0x80#8]).dec.cur + 3 ≤ (decStarted [0x80#8, 0x00#8, 0x80#8]).dec.len ∧
      within (decStarted [0x80#8, 0x00#8, 0x80#8]).par.bmax 1 = true ∧
      memSlice (decStarted [0x80#8, 0x00#8, 0x80#8]).dec.ib 0 3 = some [0x80#8, 0x00#8, 0x80#8]) ∧
    ((decStarted [0x80#8]).dec.ph = .run ∧ (decStarted [0x80#8]).dec.len = (decStarted [0x80#8]).dec.cur + 1) ∧
    ((decAt [0x05#8, 0x80#8, 0x02#8] 1 1).dec.ph = .run ∧
      (decAt [0x05#8, 0x80#8, 0x02#8] 1 1).dec.len = (decAt [0x05#8, 0x80#8, 0x02#8] 1 1).dec.cur + 2) := by decide

theorem witness_DecLargeAppendsGatheredPayload :
    ((decStarted [0x81#8, 0x00#8, 0x00#8, 0x00#8, 0x80#8]).dec.ph = .run ∧
      (decStarted [0x81#8, 0x00#8, 0x00#8, 0x00#8, 0x80#8]).dec.cur + 5 ≤
        (decStarted [0x81#8, 0x00#8, 0x00#8, 0x00#8, 0x80#8]).dec.len ∧
      within (decStarted [0x81#8, 0x00#8, 0x00#8, 0x00#8, 0x80#8]).par.bmax 1 = true ∧
      memSlice (decStarted [0x81#8, 0x00#8, 0x00#8, 0x00#8, 0x80#8]).dec.ib 0 5 =
        some [0x81#8, 0x00#8, 0x00#8, 0x00#8, 0x80#8]) ∧
    ((decStarted [0x81#8]).dec.ph = .run ∧ (decStarted [0x81#8]).dec.len = (decStarted [0x81#8]).dec.cur + 1) ∧
    ((decStarted [0x81#8, 0x02#8, 0x03#8, 0x04#8]).dec.ph = .run ∧
      (decStarted [0x81#8, 0x02#8, 0x03#8, 0x04#8]).dec.len =
        (decStarted [0x81#8, 0x02#8, 0x03#8, 0x04#8]).dec.cur + 4) := by decide

theorem witness_EncSmallEmitsLowByte :
    (-126 ≤ (toValue (-126)).toInt ∧ (toValue (-126)).toInt ≤ 127 ∧ (toValue 127).toInt ≤ 127) ∧
    (bounded (encStarted [-126])).enc.ph = .run ∧ (bounded (encStarted [-126])).enc.idx < (bounded (encStarted [-126])).enc.n ∧
    within (obCapacity (bounded (encStarted [-126])).par) ((bounded (encStarted [-126])).enc.olen + 1) = true ∧
    memGet (bounded (encStarted [-126])).enc.iv (bounded (encStarted [-126])).enc.idx = some (toValue (-126)) := by decide

theorem witness_EncMediumEmitsTagAndTwoBytes :
    ((-32768 ≤ (toValue (-32768)).toInt ∧ (toValue (-127)).toInt ≤ -127) ∧
      (128 ≤ (toValue 128).toInt ∧ (toValue 32767).toInt ≤ 32767)) ∧
    (bounded (encStarted [128])).enc.ph = .run ∧ (bounded (encStarted [128])).enc.idx < (bounded (encStarted [128])).enc.n ∧
    within (obCapacity (bounded (encStarted [128])).par) ((bounded (encStarted [128])).enc.olen + 3) = true ∧
    memGet (bounded (encStarted [128])).enc.iv (bounded (encStarted [128])).enc.idx = some (toValue 128) := by decide

/-- The capacity is met exactly: one value, five bytes. -/
theorem witness_EncLargeEmitsTagAndFourBytes :
    ((toValue (-32769)).toInt ≤ -32769 ∧ 32768 ≤ (toValue 32768).toInt) ∧
    (bounded (encStarted [32768])).enc.ph = .run ∧
    (bounded (encStarted [32768])).enc.idx < (bounded (encStarted [32768])).enc.n ∧
    within (obCapacity (bounded (encStarted [32768])).par) ((bounded (encStarted [32768])).enc.olen + 5) = true ∧
    memGet (bounded (encStarted [32768])).enc.iv (bounded (encStarted [32768])).enc.idx = some (toValue 32768) := by decide

theorem witness_RecordOperationFaults :
    (isDec (.decSmall 0x05#8) = true ∧ State.reset.dec.ph ≠ .run) ∧
    ((decStarted []).dec.ph = .run ∧ (decStarted []).dec.len ≤ (decStarted []).dec.cur) ∧
    (isDec (.encSmall 5#32) = false ∧ State.reset.enc.ph ≠ .run) ∧
    ((encStarted []).enc.ph = .run ∧ (encStarted []).enc.n ≤ (encStarted []).enc.idx) ∧
    ((bounded (decAt [0x05#8, 0x05#8, 0x05#8] 2 2)).dec.ph = .run ∧
      (bounded (decAt [0x05#8, 0x05#8, 0x05#8] 2 2)).dec.cur + (encode (.decSmall 0x05#8)).length ≤
        (bounded (decAt [0x05#8, 0x05#8, 0x05#8] 2 2)).dec.len ∧
      within (bounded (decAt [0x05#8, 0x05#8, 0x05#8] 2 2)).par.bmax
        ((bounded (decAt [0x05#8, 0x05#8, 0x05#8] 2 2)).dec.ocnt + 1) = false) ∧
    ((bounded (encStarted [5])).enc.ph = .run ∧ (bounded (encStarted [5])).enc.idx < (bounded (encStarted [5])).enc.n ∧
      within (obCapacity (bounded (encStarted [5])).par) (5 + (encode (.encSmall 5#32)).length) = false) := by decide

theorem witness_StepRunsDecodedRecord :
    (decAt [0x05#8, 0x80#8, 0xE8#8, 0x03#8] 1 1).turns = [.unit .dec] ∧
    (decAt [0x05#8, 0x80#8, 0xE8#8, 0x03#8] 1 1).dec.ph = .run ∧
    (decAt [0x05#8, 0x80#8, 0xE8#8, 0x03#8] 1 1).dec.cur < (decAt [0x05#8, 0x80#8, 0xE8#8, 0x03#8] 1 1).dec.len ∧
    memSlice (decAt [0x05#8, 0x80#8, 0xE8#8, 0x03#8] 1 1).dec.ib 1 3 = some [0x80#8, 0xE8#8, 0x03#8] ∧
    decode [0x80#8, 0xE8#8, 0x03#8] = .record (.decMedium 0xE8#8 0x03#8) [] := by decide

theorem witness_StepRunsSelectedRecord :
    (encStarted [-128]).turns = [.unit .enc] ∧ (encStarted [-128]).enc.ph = .run ∧
    (encStarted [-128]).enc.idx < (encStarted [-128]).enc.n ∧
    memGet (encStarted [-128]).enc.iv (encStarted [-128]).enc.idx = some (toValue (-128)) := by decide

/-- The boundary of each clause: 2 bytes left for a medium tag, 4 for a large one. -/
theorem witness_ErrorStepWrites :
    ((decStarted [0x80#8, 0x02#8]).turns = [.unit .dec] ∧ (decStarted [0x80#8, 0x02#8]).dec.ph = .run ∧
      (decStarted [0x80#8, 0x02#8]).dec.cur < (decStarted [0x80#8, 0x02#8]).dec.len ∧
      memGet (decStarted [0x80#8, 0x02#8]).dec.ib 0 = some 0x80#8 ∧
      (decStarted [0x80#8, 0x02#8]).dec.len - (decStarted [0x80#8, 0x02#8]).dec.cur < 3) ∧
    (memGet (decStarted [0x81#8, 0x02#8, 0x03#8, 0x04#8]).dec.ib 0 = some 0x81#8 ∧
      (decStarted [0x81#8, 0x02#8, 0x03#8, 0x04#8]).dec.cur < (decStarted [0x81#8, 0x02#8, 0x03#8, 0x04#8]).dec.len ∧
      (decStarted [0x81#8, 0x02#8, 0x03#8, 0x04#8]).dec.len - (decStarted [0x81#8, 0x02#8, 0x03#8, 0x04#8]).dec.cur < 5) := by
  decide

theorem witness_FinishingStepSetsDone :
    ((encStarted []).turns = [.unit .enc] ∧ (encStarted []).enc.ph = .run ∧ (encStarted []).enc.idx = (encStarted []).enc.n) ∧
    ((decAt [0x05#8] 1 1).turns = [.unit .dec] ∧ (decAt [0x05#8] 1 1).dec.ph = .run ∧
      (decAt [0x05#8] 1 1).dec.cur = (decAt [0x05#8] 1 1).dec.len) := by decide

theorem witness_StepFollowsTurns :
    (hostNext .reset).turns = [.host .reset] ∧ (decStarted []).turns = [.unit .dec] ∧
    (((encStarted [5]).withTurns []).turns = [] ∧ ((encStarted [5]).withTurns []).enc.ph = .run) ∧
    (((decStarted []).withTurns []).turns = [] ∧ ((decStarted []).withTurns []).enc.ph ≠ .run ∧
      ((decStarted []).withTurns []).dec.ph = .run) ∧
    (State.reset.turns = [] ∧ State.reset.enc.ph ≠ .run ∧ State.reset.dec.ph ≠ .run) := by decide

theorem witness_ResetBuffersHoldNoValue : (0 : Nat) < 1 := by decide

theorem witness_ResetMoveFromAnyState : ((encStarted [5]).withTurns [.host .reset]).turns = [.host .reset] := by decide

theorem witness_EncStartLoadsAndRuns :
    (bounded State.reset).enc.ph ≠ .run ∧ within (bounded State.reset).par.nmax ([5#32] : List Value).length = true := by
  decide

theorem witness_DecStartLoadsAndRuns :
    (bounded decFailed).dec.ph ≠ .run ∧ within (bounded decFailed).par.bmax ([0x7F#8, 0x80#8] : List Byte).length = true := by
  decide

/-- An encoder that has finished with one byte. -/
def encFinished : State :=
  let s := encStarted [5]
  (s.withEnc (s.enc.emit [0x05#8]).finish).withTurns []

theorem witness_ReadsReturnResultsAndChangeNothing :
    (encFinished.enc.ph = .done ∧ memSlice encFinished.enc.ob 0 encFinished.enc.olen = some [0x05#8]) ∧
    (decFailed.dec.ph = .done ∧ memSlice decFailed.dec.ov 0 decFailed.dec.ocnt = some []) := by decide

theorem witness_MovesOutsideTheTableRefused :
    ((encStarted [5]).enc.ph = .run ∧ (encStarted [5]).enc.ph ≠ .done) ∧
    ((bounded State.reset).enc.ph ≠ .run ∧ within (bounded State.reset).par.nmax ([5#32, 6#32] : List Value).length = false) ∧
    ((decStarted []).dec.ph = .run ∧ (decStarted []).dec.ph ≠ .done) ∧
    ((bounded State.reset).dec.ph ≠ .run ∧
      within (bounded State.reset).par.bmax ([0#8, 0#8, 0#8] : List Byte).length = false) := by decide

/-- The invariants hold of a machine whose encoder and decoder are both in the middle of a transaction. -/
def bothRunning : State :=
  { State.reset with
    enc := (Enc.reset.start [toValue 5, toValue (-127)]).emit [0x05#8]
    dec := (Dec.reset.start [0x80#8, 0xE8#8, 0x03#8, 0x81#8]).append 3 (toValue 1000)
    par := { nmax := some 2, bmax := some 4 } }

theorem bothRunning_inv : bothRunning.Inv :=
  ⟨by decide, ⟨by decide, by decide, by decide, by decide, by decide, [toValue 5, toValue (-127)], by decide, by decide⟩,
    by decide, [0x80#8, 0xE8#8, 0x03#8, 0x81#8], by decide,
    ⟨by decide, by decide, by decide, by decide, by decide, by decide, [toValue 1000], by decide, by decide⟩⟩

/-- The step from it is `ENC`'s value step. -/
theorem witness_StepKeepsInvariants : bothRunning.Inv ∧ ∃ t, step bothRunning = .next t ∧ t.enc.olen = 4 :=
  ⟨bothRunning_inv, _, rfl, by decide⟩

theorem witness_StepKeepsBuffersCanonical : bothRunning.canonical = true ∧ ∃ t, step bothRunning = .next t :=
  ⟨by decide, _, rfl⟩

theorem witness_RunningUnitNeverStuck :
    bothRunning.Inv ∧ bothRunning.phase .enc = .run ∧ bothRunning.phase .dec = .run :=
  ⟨bothRunning_inv, by decide, by decide⟩

/-- A value and a record are left in each unit, the decoder's last one cut short. -/
theorem witness_RunningUnitFinishesInTime :
    (bothRunning.Inv ∧ bothRunning.enc.ph = .run ∧ bothRunning.dec.ph = .run) ∧
    (after (runUnit .enc 2 bothRunning)).map (fun t => t.enc.ph) = some .done ∧
    (after (runUnit .dec 1 bothRunning)).map (fun t => t.dec.ph) = some .done :=
  ⟨⟨bothRunning_inv, by decide, by decide⟩, by decide, by decide⟩

/-- Both units of the one machine can step, and here the decoder's step is the error step. -/
theorem witness_UnitsDoNotInterfere :
    ∃ a b, unitStep .enc bothRunning = .next a ∧ unitStep .dec bothRunning = .next b ∧ b.dec.err = .truncatedRecord :=
  ⟨_, _, rfl, rfl, by decide⟩

/-- A phase changes by a start, by a finishing step and by reset. -/
theorem witness_PhaseTransitions :
    (after (step (hostNext (.encStart [5#32])))).map (fun t => t.enc.ph) = some .run ∧
    (after (step (encStarted []))).map (fun t => t.enc.ph) = some .done ∧
    (after (step ((decStarted []).withTurns [.host .reset]))).map (fun t => t.dec.ph) = some .idle := by decide

/-- The flag is set by an error step and cleared by a start. -/
theorem witness_ErrorFlagSetAndCleared :
    ((decStarted [0x80#8]).dec.err = .noError ∧
      (after (step (decStarted [0x80#8]))).map (fun t => t.dec.err) = some .truncatedRecord) ∧
    (decFailed.dec.err = .truncatedRecord ∧
      (after (step (decFailed.withTurns [.host (.decStart [])]))).map (fun t => t.dec.err) = some .noError) := by decide

/-- The cursor moves by 5 to the end of the buffer exactly, and the index by 1. -/
theorem witness_PositionsAdvance :
    (after (unitStep .dec (decStarted [0x81#8, 0#8, 0#8, 0#8, 0#8]))).map (fun t => (t.dec.cur, t.dec.len)) = some (5, 5) ∧
    (after (unitStep .enc (encStarted [5]))).map (fun t => (t.enc.idx, t.enc.n)) = some (1, 1) := by decide

/-- A buffer of each kind changes. -/
theorem witness_BuffersWrittenOnlyByTheirOwner :
    (after (step (hostNext (.encStart [5#32])))).map (fun t => t.enc.iv) ≠ some (hostNext (.encStart [5#32])).enc.iv ∧
    (after (step (hostNext (.decStart [5#8])))).map (fun t => t.dec.ib) ≠ some (hostNext (.decStart [5#8])).dec.ib ∧
    (after (step (encStarted [5]))).map (fun t => t.enc.ob) ≠ some (encStarted [5]).enc.ob ∧
    (after (step (decStarted [0x05#8]))).map (fun t => t.dec.ov) ≠ some (decStarted [0x05#8]).dec.ov := by decide

theorem witness_EncodeTransaction :
    (bounded State.reset).enc.ph ≠ .run ∧
    within (bounded State.reset).par.nmax ([toValue (-32769)] : List Value).length = true := by decide

theorem witness_DecodeTransaction :
    (bounded decFailed).dec.ph ≠ .run ∧
    within (bounded decFailed).par.bmax ([0x80#8, 0x02#8] : List Byte).length = true ∧
    decodeBuf [0x80#8, 0x02#8] = .err 3 2 ∧ decodeBuf [0x05#8, 0x7F#8] = .ok [5#32, 127#32] := by decide

/-- The same transactions from different states, the decoder's from reset and from an error. -/
theorem witness_StartForgetsEarlierState :
    (∃ a a' t t', hostMove (.encStart [5#32]) State.reset = .next a ∧ hostMove (.encStart [5#32]) encFinished = .next a' ∧
      runUnit .enc 2 a = .next t ∧ runUnit .enc 2 a' = .next t' ∧ encOutcome t = some [0x05#8]) ∧
    ∃ a a' t t', hostMove (.decStart [0x05#8]) State.reset = .next a ∧ hostMove (.decStart [0x05#8]) decFailed = .next a' ∧
      runUnit .dec 2 a = .next t ∧ runUnit .dec 2 a' = .next t' ∧ decOutcome t = some (.ok [5#32]) :=
  ⟨⟨_, _, _, _, rfl, rfl, rfl, rfl, by decide⟩, _, _, _, _, rfl, rfl, rfl, rfl, by decide⟩

theorem witness_TagNonCollision : -126 ≤ (toValue (-126)).toInt ∧ (toValue (-126)).toInt ≤ 127 := by decide

theorem witness_DecodeOfConcatenation :
    decodeBuf [0x80#8, 0x05#8, 0x00#8] = .ok [5#32] ∧ decodeBuf [0x07#8] = .ok [7#32] ∧ decodeBuf [0x81#8] = .err 5 1 := by
  decide

theorem witness_InjectivityAndCanonicalRecords :
    decodeBuf [0x80#8, 0x05#8, 0x00#8] = .ok [5#32] ∧
    (∀ r ∈ [Instr.decMedium 0x05#8 0x00#8, .decSmall 0x82#8], isDec r = true ∧ r.wf = true) := by decide

/-- A cut inside the medium record and a cut at its end. -/
theorem witness_CutOfEncoderOutput :
    2 ≤ (encodeSeq [5#32, toValue (-127)]).length ∧ 4 ≤ (encodeSeq [5#32, toValue (-127)]).length := by decide

theorem witness_SizeBounds : decodeBuf [0x81#8, 0x05#8, 0x00#8, 0x00#8, 0x00#8] = .ok [5#32] := by decide

end Sys2Proof.Tests.Slice0
end

section
/-! PROOFS. The state, its invariants and the units' steps (10_state.md): the facts about buffers, records and single
operations that the statements of this family need, then the statements. -/

namespace Sys2Proof.Machine

/-! ### Buffers: appending to a valid range -/

/-- Writing right after a readable range makes the longer range readable. -/
theorem memSlice_memWrite_append {α : Type} {m : Memory α} {n : Nat} {xs : List α} (h : memSlice m 0 n = some xs)
    (ys : List α) : memSlice (memWrite m n ys) 0 (n + ys.length) = some (xs ++ ys) := by
  have hbelow : memSlice (memWrite m n ys) 0 n = some xs :=
    (memSlice_congr fun b _ hb => memGet_memWrite_outside m ys (.inl (by omega))).trans h
  refine memSlice_add _ 0 n ys.length hbelow ?_
  rw [Nat.zero_add]
  exact memSlice_memWrite_self m n ys

/-- Every offset of a readable range has a value. -/
theorem exists_memGet_of_memSlice {α : Type} {m : Memory α} {n k : Nat} {xs : List α} (h : memSlice m 0 n = some xs)
    (hk : k < n) : ∃ x, memGet m k = some x ∧ xs[k]? = some x := by
  have hlen := memSlice_length h
  exact ⟨xs[k], by rw [memGet_of_memSlice h hk, List.getElem?_eq_getElem], List.getElem?_eq_getElem _⟩

/-! ### Records -/

/-- The bytes of the operation selected for a value are the closed form `enc1` (R135). -/
theorem encode_selectRecord (v : Value) : encode (selectRecord v) = enc1 v := by
  by_cases hs : fitsSmall v = true
  · have h := (fitsSmall_iff v).mp hs
    simp only [selectRecord, enc1, if_pos hs, if_pos h, encode]
  · have h := mt (fitsSmall_iff v).mpr hs
    by_cases hm : fitsMedium v = true
    · have h' := (fitsMedium_iff v).mp hm
      simp only [selectRecord, enc1, if_neg hs, if_neg h, if_pos hm, if_pos h', encode, split16, tagMedium]
    · have h' := mt (fitsMedium_iff v).mpr hm
      simp only [selectRecord, enc1, if_neg hs, if_neg h, if_neg hm, if_neg h', encode, split32, tagLarge]

/-- A value's record has 1 to 5 bytes (R135). -/
theorem enc1_length_bounds (v : Value) : 1 ≤ (enc1 v).length ∧ (enc1 v).length ≤ 5 := by
  unfold enc1
  split_ifs <;> simp

theorem encodeSeq_append (vs ws : List Value) : encodeSeq (vs ++ ws) = encodeSeq vs ++ encodeSeq ws := by
  induction vs with
  | nil => rfl
  | cons v vs ih => simp [ih]

/-- The records of one value more (R136). -/
theorem encodeSeq_take_succ {vs : List Value} {k : Nat} {v : Value} (h : vs[k]? = some v) :
    encodeSeq (vs.take (k + 1)) = encodeSeq (vs.take k) ++ enc1 v := by
  rw [List.take_add_one, h, encodeSeq_append]
  simp

/-- A decoder operation's record has 1, 3 or 5 bytes (R84). -/
theorem encode_length_of_isDec {i : Instr} (h : isDec i = true) :
    (encode i).length = 1 ∨ (encode i).length = 3 ∨ (encode i).length = 5 := by
  cases i with
  | decSmall _ => exact .inl rfl
  | decMedium _ _ => exact .inr (.inl rfl)
  | decLarge _ _ _ _ => exact .inr (.inr rfl)
  | encSmall _ => cases h
  | encMedium _ => cases h
  | encLarge _ => cases h

/-- The length of a record by its first byte (R84). -/
theorem recLen_cases (t : Byte) :
    (t = 0x80#8 ∧ recLen t = 3) ∨ (t = 0x81#8 ∧ recLen t = 5) ∨ (t ≠ 0x80#8 ∧ t ≠ 0x81#8 ∧ recLen t = 1) := by
  by_cases hl : t = 0x81#8
  · subst hl; exact .inr (.inl ⟨rfl, rfl⟩)
  · by_cases hm : t = 0x80#8
    · subst hm; exact .inl ⟨rfl, rfl⟩
    · exact .inr (.inr ⟨hm, hl, by simp [recLen, tagLarge, tagMedium, hl, hm]⟩)

/-- The record of a decoder operation, then the rest (R164). -/
theorem decodeBuf_encode_append {i : Instr} (hd : isDec i = true) (hw : i.wf = true) (rest : List Byte) :
    decodeBuf (encode i ++ rest) = consResult (carried i) (decodeBuf rest) := by
  cases i with
  | decSmall u =>
    obtain ⟨hm, hl⟩ : u ≠ 0x80#8 ∧ u ≠ 0x81#8 := by simpa [Instr.wf, tagMedium, tagLarge] using hw
    exact decodeBuf_small hm hl rest
  | decMedium p0 p1 => exact decodeBuf_medium p0 p1 rest
  | decLarge p0 p1 p2 p3 => exact decodeBuf_large p0 p1 p2 p3 rest
  | encSmall _ => cases hd
  | encMedium _ => cases hd
  | encLarge _ => cases hd

theorem consResult_eq_ok {v : Value} {r : DecodeResult} {a : List Value} :
    consResult v r = .ok a ↔ ∃ vs, r = .ok vs ∧ a = v :: vs := by
  cases r with
  | ok vs => simp [eq_comm]
  | err e n => simp

@[simp] theorem foldr_consResult_ok (a c : List Value) : a.foldr consResult (.ok c) = .ok (a ++ c) := by
  induction a with
  | nil => rfl
  | cons v a ih => simp [ih]

@[simp] theorem foldr_consResult_err (a : List Value) (e n : Nat) : a.foldr consResult (.err e n) = .err e n := by
  induction a with
  | nil => rfl
  | cons v a ih => simp [ih]

/-- After a buffer that decodes, decoding goes on with what follows it (R187). -/
theorem decodeBuf_append {x : List Byte} {a : List Value} (h : decodeBuf x = .ok a) (y : List Byte) :
    decodeBuf (x ++ y) = a.foldr consResult (decodeBuf y) := by
  fun_induction decodeBuf x generalizing a with
  | case1 => cases h; rfl
  | case2 p0 p1 p2 p3 more ih =>
    obtain ⟨vs, hvs, rfl⟩ := consResult_eq_ok.mp h
    simp [ih hvs]
  | case3 => cases h
  | case4 p0 p1 more _ ih =>
    obtain ⟨vs, hvs, rfl⟩ := consResult_eq_ok.mp h
    simp [ih hvs]
  | case5 => cases h
  | case6 t more hl hm ih =>
    obtain ⟨vs, hvs, rfl⟩ := consResult_eq_ok.mp h
    simp [decodeBuf_small hm hl, ih hvs]

/-! ### The invariants of R37, one unit at a time -/

/-- R37 for `ENC`, with its buffers in their one form. -/
def EncSound (p : Params) (e : Enc) : Prop := Memory.wf e.iv = true ∧ Memory.wf e.ob = true ∧ EncInv p e

/-- R37 for `DEC`, with its buffers in their one form. -/
def DecSound (p : Params) (d : Dec) : Prop := Memory.wf d.ib = true ∧ Memory.wf d.ov = true ∧ DecInv p d

/-- The invariants of the machine are those of its two units: the model's own fields have none. -/
theorem inv_iff (s : State) : s.Inv ↔ EncSound s.par s.enc ∧ DecSound s.par s.dec := by
  simp only [State.Inv, State.canonical, Bool.and_eq_true, EncSound, DecSound]
  tauto

theorem inv_withTurns {s : State} (ts : List Turn) (h : s.Inv) : (s.withTurns ts).Inv :=
  (inv_iff _).mpr ((inv_iff s).mp h)

theorem inv_receive {s : State} (r : Reply) (h : s.Inv) : (s.receive r).Inv :=
  (inv_iff _).mpr ((inv_iff s).mp h)

theorem inv_withEnc {s : State} {e : Enc} (h : s.Inv) (he : EncSound s.par e) : (s.withEnc e).Inv :=
  (inv_iff _).mpr ⟨he, ((inv_iff s).mp h).2⟩

theorem inv_withDec {s : State} {d : Dec} (h : s.Inv) (hd : DecSound s.par d) : (s.withDec d).Inv :=
  (inv_iff _).mpr ⟨((inv_iff s).mp h).1, hd⟩

@[simp] theorem within_zero (cap : Option Nat) : within cap 0 = true := by
  cases cap with
  | none => rfl
  | some c => exact (within_some c 0).mpr (Nat.zero_le c)

/-! #### The encoder -/

theorem encSound_reset (p : Params) : EncSound p Enc.reset :=
  ⟨rfl, rfl, le_rfl, within_zero _, le_rfl, le_rfl, by simp [Enc.reset], [], rfl, rfl⟩

theorem encSound_start {p : Params} {e : Enc} (vs : List Value) (h : EncSound p e)
    (hcap : within p.nmax vs.length = true) : EncSound p (e.start vs) := by
  obtain ⟨hiv, hob, -⟩ := h
  exact ⟨wf_memWrite 0 vs hiv, hob, Nat.zero_le _, hcap, le_rfl, le_rfl, by simp, vs,
    memSlice_memWrite_self e.iv 0 vs, rfl⟩

theorem encSound_finish {p : Params} {e : Enc} (h : EncSound p e) (hidx : e.idx = e.n) : EncSound p e.finish := by
  obtain ⟨hiv, hob, hle, hcap, hlo, hhi, -, hbuf⟩ := h
  exact ⟨hiv, hob, hle, hcap, hlo, hhi, fun _ => hidx, hbuf⟩

/-- A value step appends the record of the value at `IDX`, and so keeps the output the records of the values so far. -/
theorem encSound_emit {p : Params} {e : Enc} {v : Value} (h : EncSound p e) (hrun : e.ph = .run) (hlt : e.idx < e.n)
    (hv : memGet e.iv e.idx = some v) : EncSound p (e.emit (encode (selectRecord v))) := by
  obtain ⟨hiv, hob, hle, hcap, hlo, hhi, -, vs, hvs, hout⟩ := h
  obtain ⟨hpos, hmax⟩ := enc1_length_bounds v
  have hget : vs[e.idx]? = some v := (memGet_of_memSlice hvs hlt).symm.trans hv
  rw [encode_selectRecord]
  refine ⟨hiv, wf_memWrite _ _ hob, hlt, hcap, ?_, ?_, ?_, vs, hvs, ?_⟩
  · simp only [Enc.emit_idx, Enc.emit_olen]; omega
  · simp only [Enc.emit_idx, Enc.emit_olen]; omega
  · simp [hrun]
  · simp only [Enc.emit_idx, Enc.emit_olen, Enc.emit_ob, encodeSeq_take_succ hget]
    exact memSlice_memWrite_append hout (enc1 v)

/-! #### The decoder -/

theorem decSound_reset (p : Params) : DecSound p Dec.reset :=
  ⟨rfl, rfl, within_zero _, [], rfl, le_rfl, le_rfl, le_rfl, rfl, rfl, by simp [Dec.reset], [], rfl, decodeBuf_nil⟩

theorem decSound_start {p : Params} {d : Dec} (bs : List Byte) (h : DecSound p d)
    (hcap : within p.bmax bs.length = true) : DecSound p (d.start bs) := by
  obtain ⟨hib, hov, -⟩ := h
  exact ⟨wf_memWrite 0 bs hib, hov, hcap, bs, memSlice_memWrite_self d.ib 0 bs, Nat.zero_le _, le_rfl, le_rfl, rfl, rfl,
    by simp, [], rfl, decodeBuf_nil⟩

/-- In RUN the flag `ERR` is 0, so the first case of R37 holds. -/
theorem decInv_of_running {p : Params} {d : Dec} (h : DecInv p d) (hrun : d.ph = .run) :
    within p.bmax d.len = true ∧ d.err = .noError ∧ ∃ bs, memSlice d.ib 0 d.len = some bs ∧ DecInvOk d bs := by
  obtain ⟨hcap, bs, hbs, hcase⟩ := h
  cases herr : d.err with
  | noError => exact ⟨hcap, rfl, bs, hbs, by simpa [herr] using hcase⟩
  | truncatedRecord =>
    obtain ⟨hdone, -⟩ : DecInvErr d bs := by simpa [herr] using hcase
    exact absurd (hrun.symm.trans hdone) (by simp)

theorem decInv_of_ok {p : Params} {d : Dec} {bs : List Byte} (hcap : within p.bmax d.len = true)
    (herr : d.err = .noError) (hbs : memSlice d.ib 0 d.len = some bs) (hok : DecInvOk d bs) : DecInv p d :=
  ⟨hcap, bs, hbs, by simpa [herr] using hok⟩

theorem decInv_of_err {p : Params} {d : Dec} {bs : List Byte} (hcap : within p.bmax d.len = true)
    (herr : d.err = .truncatedRecord) (hbs : memSlice d.ib 0 d.len = some bs) (hbad : DecInvErr d bs) : DecInv p d :=
  ⟨hcap, bs, hbs, by simpa [herr] using hbad⟩

theorem decSound_finish {p : Params} {d : Dec} (h : DecSound p d) (hrun : d.ph = .run) (hcur : d.cur = d.len) :
    DecSound p d.finish := by
  obtain ⟨hib, hov, hinv⟩ := h
  obtain ⟨hcap, herr, bs, hbs, hle, hlo, hhi, hexp, havl, -, hbuf⟩ := decInv_of_running hinv hrun
  exact ⟨hib, hov, decInv_of_ok hcap herr hbs ⟨hle, hlo, hhi, hexp, havl, fun _ => hcur, hbuf⟩⟩

/-- The error step is taken at a tag with too few bytes after it, which is the second case of R37. -/
theorem decSound_raiseTruncated {p : Params} {d : Dec} {b : Byte} (h : DecSound p d) (hrun : d.ph = .run)
    (hlt : d.cur < d.len) (hb : memGet d.ib d.cur = some b) (hshort : d.len - d.cur < recLen b) :
    DecSound p (d.raiseTruncated (recLen b) (d.len - d.cur)) := by
  obtain ⟨hib, hov, hinv⟩ := h
  obtain ⟨hcap, -, bs, hbs, -, -, -, -, -, -, vs, -, hdec⟩ := decInv_of_running hinv hrun
  have hget : bs[d.cur]? = some b := (memGet_of_memSlice hbs hlt).symm.trans hb
  refine ⟨hib, hov, decInv_of_err hcap rfl hbs ⟨rfl, rfl, hlt, rfl, ?_, vs, hdec⟩⟩
  simp only [Dec.raiseTruncated_cur, Dec.raiseTruncated_exp, Dec.raiseTruncated_avl]
  rcases recLen_cases b with ⟨rfl, hlen⟩ | ⟨rfl, hlen⟩ | ⟨-, -, hlen⟩
  · exact .inl ⟨hget, hlen, by omega, by omega⟩
  · exact .inr ⟨hget, hlen, by omega, by omega⟩
  · omega

/-- A record step appends the value of the record at the cursor, and so keeps the values so far what the bytes before the
cursor decode to. -/
theorem decSound_append {p : Params} {d : Dec} {i : Instr} (h : DecSound p d) (hrun : d.ph = .run)
    (hdec : isDec i = true) (hwf : i.wf = true) (hfit : d.cur + (encode i).length ≤ d.len)
    (hrec : memSlice d.ib d.cur (encode i).length = some (encode i)) :
    DecSound p (d.append (encode i).length (carried i)) := by
  obtain ⟨hib, hov, hinv⟩ := h
  obtain ⟨hcap, herr, bs, hbs, -, hlo, hhi, hexp, havl, -, vs, hvs, hvals⟩ := decInv_of_running hinv hrun
  have hlen := encode_length_of_isDec hdec
  have hbytes : bs.take (d.cur + (encode i).length) = bs.take d.cur ++ encode i := by
    have hsub := memSlice_sub hbs hfit
    rw [Nat.zero_add, hrec] at hsub
    rw [List.take_add, ← Option.some.inj hsub]
  have hone : decodeBuf (encode i) = .ok [carried i] := by
    simpa using decodeBuf_encode_append hdec hwf []
  refine ⟨hib, wf_memSet _ _ hov, decInv_of_ok hcap herr hbs
    ⟨hfit, ?_, ?_, hexp, havl, by simp [hrun], vs ++ [carried i], ?_, ?_⟩⟩
  · simp only [Dec.append_cur, Dec.append_ocnt]; omega
  · simp only [Dec.append_cur, Dec.append_ocnt]; omega
  · exact memSlice_memWrite_append hvs [carried i]
  · rw [Dec.append_cur, hbytes, decodeBuf_append hvals, hone, foldr_consResult_ok]

/-! #### The machine -/

theorem inv_reset : State.reset.Inv := (inv_iff _).mpr ⟨encSound_reset _, decSound_reset _⟩

/-- Every move of the host keeps the invariants. -/
theorem hostMove_keeps_inv {m : HostMove} {s t : State} (hs : s.Inv) (h : hostMove m s = .next t) : t.Inv := by
  obtain ⟨henc, hdec⟩ := (inv_iff s).mp hs
  rcases hostMove_next h with ⟨-, rfl⟩ | ⟨vs, -, -, hcap, rfl⟩ | ⟨bs, -, -, -, rfl⟩ | ⟨bs, -, -, hcap, rfl⟩ |
    ⟨vs, -, -, -, rfl⟩
  · exact (inv_iff _).mpr ⟨encSound_reset _, decSound_reset _⟩
  · exact inv_withEnc hs (encSound_start vs henc hcap)
  · exact inv_receive _ hs
  · exact inv_withDec hs (decSound_start bs hdec hcap)
  · exact inv_receive _ hs

/-- Every step of a unit keeps the invariants. -/
theorem unitStep_keeps_inv {u : UnitId} {s t : State} (hs : s.Inv) (h : unitStep u s = .next t) : t.Inv := by
  obtain ⟨henc, hdec⟩ := (inv_iff s).mp hs
  cases u with
  | enc =>
    obtain ⟨hrun, ⟨hidx, rfl⟩ | ⟨v, hlt, hv, -, rfl⟩⟩ := unitStep_enc_next h
    · exact inv_withEnc hs (encSound_finish henc hidx)
    · exact inv_withEnc hs (encSound_emit henc hrun hlt hv)
  | dec =>
    obtain ⟨hrun, ⟨hcur, rfl⟩ | ⟨b, hlt, hb, hshort, rfl⟩ | ⟨i, hi, hwf, hfit, hrec, -, rfl⟩⟩ := unitStep_dec_next h
    · exact inv_withDec hs (decSound_finish hdec hrun hcur)
    · exact inv_withDec hs (decSound_raiseTruncated hdec hrun hlt hb hshort)
    · exact inv_withDec hs (decSound_append hdec hrun hi hwf hfit hrec)

/-- Every step of the machine keeps the invariants. -/
theorem step_keeps_inv {s t : State} (hs : s.Inv) (h : step s = .next t) : t.Inv := by
  rcases step_cases s with ⟨-, -, -, hstep⟩ | ⟨m, ts, -, hstep⟩ | ⟨u, s', -, hstep, hs'⟩
  · cases hstep.symm.trans h; exact hs
  · exact hostMove_keeps_inv (inv_withTurns ts hs) (hstep.symm.trans h)
  · refine unitStep_keeps_inv ?_ (hstep.symm.trans h)
    rcases hs' with ⟨ts, -, rfl⟩ | ⟨-, rfl⟩
    exacts [inv_withTurns ts hs, hs]

/-- Settles O31: each unit's own invariant is kept by each thing its step, or the host, can do. -/
theorem stepKeepsInvariants : Obligations.StepKeepsInvariants := fun _ _ => step_keeps_inv

/-- Settles O32. -/
theorem resetStateMeetsInvariants : Obligations.ResetStateMeetsInvariants := inv_reset

/-! ### A unit's step, by what it fetches -/

theorem unitStep_of_finish {u : UnitId} {s : State} (h : fetch u s = .finish) :
    unitStep u s = .next (finishUnit u s) := by
  simp only [unitStep, h]

theorem unitStep_of_record {u : UnitId} {s : State} {i : Instr} (h : fetch u s = .record i) :
    unitStep u s = exec i s := by
  simp only [unitStep, h]

theorem unitStep_of_short {u : UnitId} {s : State} {need rem : Nat} (h : fetch u s = .short need rem) :
    unitStep u s = .next (takeTruncated need rem s) := by
  simp only [unitStep, h]

theorem unitStep_of_stop {u : UnitId} {s : State} {f : Fault} (h : fetch u s = .stop f) :
    unitStep u s = .fault f := by
  simp only [unitStep, h]

/-- The encoder's record operations are the encoder's (R136). -/
theorem isDec_of_fetch_enc {s : State} {i : Instr} (h : fetch .enc s = .record i) : isDec i = false := by
  rcases fetchEnc_cases s with ⟨-, hf⟩ | ⟨-, -, hf⟩ | ⟨v, -, -, -, hf⟩ | ⟨f, -, -, hf⟩ <;> cases hf.symm.trans h
  exact isDec_selectRecord v

/-- The encoder has no error step (R136). -/
theorem fetch_enc_ne_short (s : State) (need rem : Nat) : fetch .enc s ≠ .short need rem := by
  intro h
  rcases fetchEnc_cases s with ⟨-, hf⟩ | ⟨-, -, hf⟩ | ⟨v, -, -, -, hf⟩ | ⟨f, -, -, hf⟩ <;> cases hf.symm.trans h

/-- The decoder's record operations are the decoder's (R163). -/
theorem isDec_of_fetch_dec {s : State} {i : Instr} (h : fetch .dec s = .record i) : isDec i = true := by
  rcases fetchDec_cases s with ⟨-, hf⟩ | ⟨-, -, hf⟩ | ⟨b, -, -, -, -, hf⟩ | ⟨b, j, payload, -, -, -, -, hd, -, -, hf⟩ |
    ⟨f, -, -, hf⟩ <;> cases hf.symm.trans h
  exact isDec_of_decode_whole hd

/-! ### Progress of a running unit -/

/-- In RUN with the input used up, the encoder fetches the finishing step (R136). -/
theorem fetchEnc_of_end {s : State} (hrun : s.enc.ph = .run) (hend : s.enc.idx = s.enc.n) : fetchEnc s = .finish := by
  simp [fetchEnc, hrun, hend]

/-- In RUN with a readable value left, the encoder fetches the operation selected for it (R136). -/
theorem fetchEnc_of_value {s : State} {v : Value} (hrun : s.enc.ph = .run) (hlt : s.enc.idx < s.enc.n)
    (hv : memGet s.enc.iv s.enc.idx = some v) : fetchEnc s = .record (selectRecord v) := by
  have hread : memReadOne .iv s.enc.iv s.enc.n s.enc.idx = .ok v := memReadOne_eq_ok.mpr ⟨hlt, hv⟩
  simp [fetchEnc, hrun, hlt.ne, hread]

/-- In RUN with a readable input and a byte left, the framer does not stop: the record is cut short or whole (R152). -/
theorem fetchDec_ne_stop {s : State} {bs : List Byte} (hrun : s.dec.ph = .run) (hlt : s.dec.cur < s.dec.len)
    (hbs : memSlice s.dec.ib 0 s.dec.len = some bs) (f : Fault) : fetchDec s ≠ .stop f := by
  obtain ⟨t, ht, -⟩ := exists_memGet_of_memSlice hbs hlt
  have hone : memReadOne .ib s.dec.ib s.dec.len s.dec.cur = .ok t := memReadOne_eq_ok.mpr ⟨hlt, ht⟩
  by_cases hshort : s.dec.len - s.dec.cur < recLen t
  · simp [fetchDec, hrun, hlt.ne, hone, hshort]
  · have hfetch : fetchDec s = fetchPayload t s := by simp [fetchDec, hrun, hlt.ne, hone, hshort]
    have hpos := recLen_pos t
    have hfit : s.dec.cur + 1 + (recLen t - 1) ≤ s.dec.len := by omega
    rcases fetchPayload_cases t s with ⟨i, -, -, -, -, -, hrec⟩ | ⟨f', hbad, -⟩
    · simp [hfetch, hrec]
    · have hpayload := memSlice_sub hbs hfit
      rw [Nat.zero_add] at hpayload
      exact absurd ((memRead_eq_ok.mpr ⟨hfit, hpayload⟩).symm.trans hbad) (by simp)

/-- The encoder's room is that of five bytes for each value, so a value step always fits (R27). -/
theorem unitStep_enc_progress {s : State} (h : EncInv s.par s.enc) (hrun : s.enc.ph = .run) :
    ∃ t, unitStep .enc s = .next t := by
  obtain ⟨hle, hcap, -, hhi, -, vs, hvs, -⟩ := h
  by_cases hend : s.enc.idx = s.enc.n
  · exact ⟨_, unitStep_of_finish (fetchEnc_of_end hrun hend)⟩
  · have hlt : s.enc.idx < s.enc.n := by omega
    obtain ⟨v, hv, -⟩ := exists_memGet_of_memSlice hvs hlt
    have hmax := (enc1_length_bounds v).2
    have hroom : within (obCapacity s.par) (s.enc.olen + (encode (selectRecord v)).length) = true :=
      within_obCapacity hcap (by rw [encode_selectRecord]; omega)
    have hstep : unitStep .enc s = exec (selectRecord v) s := unitStep_of_record (fetchEnc_of_value hrun hlt hv)
    rw [hstep, exec_enc (isDec_selectRecord v)]
    exact ⟨_, encRecord_eq_next.mpr ⟨hrun, hlt, hroom, rfl⟩⟩

/-- The decoder's count is at most its cursor, so a record step always fits (R27). -/
theorem unitStep_dec_progress {s : State} (h : DecInv s.par s.dec) (hrun : s.dec.ph = .run) :
    ∃ t, unitStep .dec s = .next t := by
  obtain ⟨hcap, -, bs, hbs, hle, hlo, -⟩ := decInv_of_running h hrun
  rcases fetchDec_cases s with ⟨hnot, -⟩ | ⟨-, -, hf⟩ | ⟨b, -, -, -, -, hf⟩ |
    ⟨b, i, payload, -, hfit, -, hpl, -, -, hbytes, hf⟩ | ⟨f, -, hne, hf⟩
  · exact absurd hrun hnot
  · exact ⟨_, unitStep_of_finish hf⟩
  · exact ⟨_, unitStep_of_short hf⟩
  · have hpos := recLen_pos b
    have hlen : (encode i).length = recLen b := by rw [hbytes, List.length_cons, memSlice_length hpl]; omega
    have hstep : unitStep .dec s = exec i s := unitStep_of_record hf
    rw [hstep, exec_dec (isDec_of_fetch_dec hf)]
    exact ⟨_, decRecord_eq_next.mpr
      ⟨hrun, by omega, .inr ⟨by omega, within_mono hcap (show s.dec.ocnt + 1 ≤ s.dec.len by omega), rfl⟩⟩⟩
  · exact absurd hf (fetchDec_ne_stop hrun (by omega) hbs f)

/-- Settles O34: under the invariants every read is of a written element and every write has room. -/
theorem runningUnitNeverStuck : Obligations.RunningUnitNeverStuck := by
  intro s u hinv hrun
  obtain ⟨-, henc, hdec⟩ := hinv
  cases u with
  | enc => exact unitStep_enc_progress henc hrun
  | dec => exact unitStep_dec_progress hdec hrun

/-! ### Two machines that agree on one unit

Agreement is equality of the unit's registers and of the valid parts of its buffers: what R36 says a transaction may
depend on. Elements beyond the valid counts may differ. -/

/-- Two encoders with the same registers, the same valid input and the same output so far. -/
structure EncAgree (e e' : Enc) : Prop where
  ph : e'.ph = e.ph
  n : e'.n = e.n
  idx : e'.idx = e.idx
  olen : e'.olen = e.olen
  iv : ∀ a, a < e.n → memGet e'.iv a = memGet e.iv a
  ob : ∀ a, a < e.olen → memGet e'.ob a = memGet e.ob a

/-- Two decoders with the same registers, the same valid input and the same output so far. -/
structure DecAgree (d d' : Dec) : Prop where
  ph : d'.ph = d.ph
  len : d'.len = d.len
  cur : d'.cur = d.cur
  ocnt : d'.ocnt = d.ocnt
  err : d'.err = d.err
  exp : d'.exp = d.exp
  avl : d'.avl = d.avl
  ib : ∀ a, a < d.len → memGet d'.ib a = memGet d.ib a
  ov : ∀ a, a < d.ocnt → memGet d'.ov a = memGet d.ov a

theorem EncAgree.refl (e : Enc) : EncAgree e e := ⟨rfl, rfl, rfl, rfl, fun _ _ => rfl, fun _ _ => rfl⟩

theorem DecAgree.refl (d : Dec) : DecAgree d d :=
  ⟨rfl, rfl, rfl, rfl, rfl, rfl, rfl, fun _ _ => rfl, fun _ _ => rfl⟩

/-- The same write at the end of what two buffers agree on extends the agreement. -/
theorem memGet_memWrite_agree {α : Type} {m m' : Memory α} {n : Nat} (h : ∀ a, a < n → memGet m' a = memGet m a)
    (xs : List α) : ∀ a, a < n + xs.length → memGet (memWrite m' n xs) a = memGet (memWrite m n xs) a := by
  intro a ha
  rw [memGet_memWrite, memGet_memWrite]
  by_cases hin : n ≤ a ∧ a < n + xs.length
  · rw [if_pos hin, if_pos hin]
  · rw [if_neg hin, if_neg hin, h a (by omega)]

/-- A write at offset 0 leaves nothing of what was in its range. -/
theorem memGet_memWrite_zero_agree {α : Type} (m m' : Memory α) (xs : List α) :
    ∀ a, a < xs.length → memGet (memWrite m' 0 xs) a = memGet (memWrite m 0 xs) a := by
  simpa using memGet_memWrite_agree (m := m) (m' := m') (n := 0) (by simp) xs

theorem memReadOne_congr {α : Type} {m m' : Memory α} {valid : Nat} (b : Space) (a : Nat)
    (h : ∀ a, a < valid → memGet m' a = memGet m a) : memReadOne b m' valid a = memReadOne b m valid a := by
  by_cases ha : a < valid
  · simp [memReadOne, ha, h a ha]
  · simp [memReadOne, ha]

theorem memRead_congr {α : Type} {m m' : Memory α} {valid : Nat} (b : Space) (a n : Nat)
    (h : ∀ a, a < valid → memGet m' a = memGet m a) : memRead b m' valid a n = memRead b m valid a n := by
  by_cases ha : a + n ≤ valid
  · have hslice : memSlice m' a n = memSlice m a n := memSlice_congr fun k _ hk => h k (by omega)
    simp [memRead, ha, hslice]
  · simp [memRead, ha]

/-- What the encoder does next depends on its own unit's valid part alone. -/
theorem EncAgree.fetch_eq {s s' : State} (h : EncAgree s.enc s'.enc) : fetch .enc s' = fetch .enc s := by
  simp only [fetch, fetchEnc, h.ph, h.idx, h.n, memReadOne_congr .iv s.enc.idx h.iv]

/-- What the decoder does next depends on its own unit's valid part alone. -/
theorem DecAgree.fetch_eq {s s' : State} (h : DecAgree s.dec s'.dec) : fetch .dec s' = fetch .dec s := by
  simp only [fetch, fetchDec, fetchPayload, h.ph, h.cur, h.len, memReadOne_congr .ib s.dec.cur h.ib,
    memRead_congr .ib (s.dec.cur + 1) _ h.ib]

/-! #### The agreement through a transaction -/

theorem EncAgree.start (vs : List Value) (e e' : Enc) : EncAgree (e.start vs) (e'.start vs) :=
  ⟨rfl, rfl, rfl, rfl, memGet_memWrite_zero_agree e.iv e'.iv vs, by simp⟩

theorem DecAgree.start (bs : List Byte) (d d' : Dec) : DecAgree (d.start bs) (d'.start bs) :=
  ⟨rfl, rfl, rfl, rfl, rfl, rfl, rfl, memGet_memWrite_zero_agree d.ib d'.ib bs, by simp⟩

theorem EncAgree.finish {e e' : Enc} (h : EncAgree e e') : EncAgree e.finish e'.finish :=
  ⟨rfl, h.n, h.idx, h.olen, h.iv, h.ob⟩

theorem EncAgree.emit {e e' : Enc} (h : EncAgree e e') (out : List Byte) : EncAgree (e.emit out) (e'.emit out) where
  ph := h.ph
  n := h.n
  idx := congrArg (· + 1) h.idx
  olen := congrArg (· + out.length) h.olen
  iv := h.iv
  ob := by
    rw [Enc.emit_ob, Enc.emit_ob, h.olen]
    exact memGet_memWrite_agree h.ob out

theorem DecAgree.finish {d d' : Dec} (h : DecAgree d d') : DecAgree d.finish d'.finish :=
  ⟨rfl, h.len, h.cur, h.ocnt, h.err, h.exp, h.avl, h.ib, h.ov⟩

theorem DecAgree.raiseTruncated {d d' : Dec} (h : DecAgree d d') (need rem : Nat) :
    DecAgree (d.raiseTruncated need rem) (d'.raiseTruncated need rem) :=
  ⟨rfl, h.len, h.cur, rfl, rfl, rfl, rfl, h.ib, by simp⟩

theorem DecAgree.append {d d' : Dec} (h : DecAgree d d') (need : Nat) (v : Value) :
    DecAgree (d.append need v) (d'.append need v) where
  ph := h.ph
  len := h.len
  cur := congrArg (· + need) h.cur
  ocnt := congrArg (· + 1) h.ocnt
  err := h.err
  exp := h.exp
  avl := h.avl
  ib := h.ib
  ov := by
    rw [Dec.append_ov, Dec.append_ov, h.ocnt]
    exact memGet_memWrite_agree h.ov [v]

/-- The value step of both encoders keeps the agreement. -/
theorem EncAgree.after_encRecord {out : List Byte} {s s' t t' : State} (h : EncAgree s.enc s'.enc)
    (ht : encRecord out s = .next t) (ht' : encRecord out s' = .next t') : EncAgree t.enc t'.enc := by
  obtain ⟨-, -, -, rfl⟩ := encRecord_eq_next.mp ht
  obtain ⟨-, -, -, rfl⟩ := encRecord_eq_next.mp ht'
  exact h.emit out

/-- The record step of both decoders keeps the agreement: both raise the error, or both append. -/
theorem DecAgree.after_decRecord {need : Nat} {v : Value} {s s' t t' : State} (h : DecAgree s.dec s'.dec)
    (ht : decRecord need v s = .next t) (ht' : decRecord need v s' = .next t') : DecAgree t.dec t'.dec := by
  obtain ⟨-, -, hcase⟩ := decRecord_eq_next.mp ht
  obtain ⟨-, -, hcase'⟩ := decRecord_eq_next.mp ht'
  rw [h.len, h.cur] at hcase'
  rcases hcase with ⟨hshort, rfl⟩ | ⟨hlong, -, rfl⟩ <;> rcases hcase' with ⟨hshort', rfl⟩ | ⟨hlong', -, rfl⟩
  · exact h.raiseTruncated _ _
  · omega
  · omega
  · exact h.append _ _

/-- Two encoders that agree take the same step. -/
theorem EncAgree.after_unitStep {s s' t t' : State} (h : EncAgree s.enc s'.enc) (ht : unitStep .enc s = .next t)
    (ht' : unitStep .enc s' = .next t') : EncAgree t.enc t'.enc := by
  have hsame := h.fetch_eq
  cases hf : fetch .enc s with
  | finish =>
    rw [unitStep_of_finish hf] at ht
    rw [unitStep_of_finish (hsame.trans hf)] at ht'
    cases ht; cases ht'
    exact h.finish
  | record i =>
    rw [unitStep_of_record hf, exec_enc (isDec_of_fetch_enc hf)] at ht
    rw [unitStep_of_record (hsame.trans hf), exec_enc (isDec_of_fetch_enc hf)] at ht'
    exact h.after_encRecord ht ht'
  | short need rem => exact absurd hf (fetch_enc_ne_short s need rem)
  | stop f => rw [unitStep_of_stop hf] at ht; cases ht

/-- Two decoders that agree take the same step. -/
theorem DecAgree.after_unitStep {s s' t t' : State} (h : DecAgree s.dec s'.dec) (ht : unitStep .dec s = .next t)
    (ht' : unitStep .dec s' = .next t') : DecAgree t.dec t'.dec := by
  have hsame := h.fetch_eq
  cases hf : fetch .dec s with
  | finish =>
    rw [unitStep_of_finish hf] at ht
    rw [unitStep_of_finish (hsame.trans hf)] at ht'
    cases ht; cases ht'
    exact h.finish
  | record i =>
    rw [unitStep_of_record hf, exec_dec (isDec_of_fetch_dec hf)] at ht
    rw [unitStep_of_record (hsame.trans hf), exec_dec (isDec_of_fetch_dec hf)] at ht'
    exact h.after_decRecord ht ht'
  | short need rem =>
    rw [unitStep_of_short hf] at ht
    rw [unitStep_of_short (hsame.trans hf)] at ht'
    cases ht; cases ht'
    exact h.raiseTruncated need rem
  | stop f => rw [unitStep_of_stop hf] at ht; cases ht

/-! #### The agreement along a run -/

@[simp] theorem runUnit_zero (u : UnitId) (s : State) : runUnit u 0 s = .next s := rfl

/-- A run of one step more completes where the first step does and the rest does. -/
theorem runUnit_succ_eq_next {u : UnitId} {k : Nat} {s t : State} :
    runUnit u (k + 1) s = .next t ↔ ∃ m, unitStep u s = .next m ∧ runUnit u k m = .next t := by
  rw [runUnit]
  cases unitStep u s <;> simp

/-- What two machines agree on, if every step of a unit keeps the agreement, they agree on after a run of the unit. -/
theorem runUnit_keeps_rel {u : UnitId} {R : State → State → Prop}
    (hstep : ∀ {s s' t t'}, R s s' → unitStep u s = .next t → unitStep u s' = .next t' → R t t') {k : Nat}
    {s s' t t' : State} (h : R s s') (ht : runUnit u k s = .next t) (ht' : runUnit u k s' = .next t') : R t t' := by
  induction k generalizing s s' with
  | zero => cases ht; cases ht'; exact h
  | succ k ih =>
    obtain ⟨m, hm, hrest⟩ := runUnit_succ_eq_next.mp ht
    obtain ⟨m', hm', hrest'⟩ := runUnit_succ_eq_next.mp ht'
    exact ih (hstep h hm hm') hrest hrest'

/-- A start that succeeds has loaded the encoder (R22). -/
theorem hostMove_encStart_next {vs : List Value} {s t : State} (h : hostMove (.encStart vs) s = .next t) :
    s.enc.ph ≠ .run ∧ t = s.withEnc (s.enc.start vs) := by
  rcases hostMove_next h with ⟨hm, -⟩ | ⟨ws, hm, hph, -, ht⟩ | ⟨_, hm, -⟩ | ⟨_, hm, -⟩ | ⟨_, hm, -⟩ <;> cases hm
  exact ⟨hph, ht⟩

/-- A start that succeeds has loaded the decoder (R22). -/
theorem hostMove_decStart_next {bs : List Byte} {s t : State} (h : hostMove (.decStart bs) s = .next t) :
    s.dec.ph ≠ .run ∧ t = s.withDec (s.dec.start bs) := by
  rcases hostMove_next h with ⟨hm, -⟩ | ⟨_, hm, -⟩ | ⟨_, hm, -⟩ | ⟨cs, hm, hph, -, ht⟩ | ⟨_, hm, -⟩ <;> cases hm
  exact ⟨hph, ht⟩

theorem EncAgree.encOutcome_eq {s s' : State} (h : EncAgree s.enc s'.enc) : encOutcome s' = encOutcome s := by
  have hout : memSlice s'.enc.ob 0 s.enc.olen = memSlice s.enc.ob 0 s.enc.olen :=
    memSlice_congr fun a _ ha => h.ob a (by omega)
  simp only [encOutcome, h.ph, h.olen, hout]

theorem DecAgree.decOutcome_eq {s s' : State} (h : DecAgree s.dec s'.dec) : decOutcome s' = decOutcome s := by
  have hout : memSlice s'.dec.ov 0 s.dec.ocnt = memSlice s.dec.ov 0 s.dec.ocnt :=
    memSlice_congr fun a _ ha => h.ov a (by omega)
  simp only [decOutcome, h.ph, h.err, h.exp, h.avl, h.ocnt, hout]

/-- Settles O43: a start makes any two machines agree on its unit, every step of the unit keeps the agreement, and the
outcome is read from what they agree on. -/
theorem startForgetsEarlierState : Obligations.StartForgetsEarlierState := by
  constructor
  · intro vs s s' a a' t t' k ha ha' ht ht'
    obtain ⟨-, rfl⟩ := hostMove_encStart_next ha
    obtain ⟨-, rfl⟩ := hostMove_encStart_next ha'
    have hagree : EncAgree t.enc t'.enc :=
      runUnit_keeps_rel (R := fun x y => EncAgree x.enc y.enc) EncAgree.after_unitStep (.start vs s.enc s'.enc) ht ht'
    exact ⟨hagree.ph, hagree.encOutcome_eq⟩
  · intro bs s s' a a' t t' k ha ha' ht ht'
    obtain ⟨-, rfl⟩ := hostMove_decStart_next ha
    obtain ⟨-, rfl⟩ := hostMove_decStart_next ha'
    have hagree : DecAgree t.dec t'.dec :=
      runUnit_keeps_rel (R := fun x y => DecAgree x.dec y.dec) DecAgree.after_unitStep (.start bs s.dec s'.dec) ht ht'
    exact ⟨hagree.ph, hagree.decOutcome_eq⟩

/-! ### The units share no state (R21) -/

theorem unitStep_enc_frame {s t : State} (h : unitStep .enc s = .next t) : t = s.withEnc t.enc := by
  obtain ⟨-, ⟨-, rfl⟩ | ⟨v, -, -, -, rfl⟩⟩ := unitStep_enc_next h <;> rfl

theorem unitStep_dec_frame {s t : State} (h : unitStep .dec s = .next t) : t = s.withDec t.dec := by
  obtain ⟨-, ⟨-, rfl⟩ | ⟨b, -, -, -, rfl⟩ | ⟨i, -, -, -, -, -, rfl⟩⟩ := unitStep_dec_next h <;> rfl

/-- The encoder's step has the same effect on the unit in every machine with this unit and these parameters. -/
theorem unitStep_enc_of_same_unit {s s' t : State} (henc : s'.enc = s.enc) (hpar : s'.par = s.par)
    (h : unitStep .enc s = .next t) : unitStep .enc s' = .next (s'.withEnc t.enc) := by
  have hsame : fetch .enc s' = fetch .enc s := EncAgree.fetch_eq (henc ▸ EncAgree.refl s.enc)
  cases hf : fetch .enc s with
  | finish =>
    rw [unitStep_of_finish hf] at h
    cases h
    rw [unitStep_of_finish (hsame.trans hf)]
    simp only [finishUnit, henc, State.withEnc_enc]
  | record i =>
    rw [unitStep_of_record hf, exec_enc (isDec_of_fetch_enc hf)] at h
    rw [unitStep_of_record (hsame.trans hf), exec_enc (isDec_of_fetch_enc hf)]
    obtain ⟨hrun, hlt, hroom, rfl⟩ := encRecord_eq_next.mp h
    refine encRecord_eq_next.mpr ?_
    rw [henc, hpar]
    exact ⟨hrun, hlt, hroom, rfl⟩
  | short need rem => exact absurd hf (fetch_enc_ne_short s need rem)
  | stop f => rw [unitStep_of_stop hf] at h; cases h

/-- The decoder's step has the same effect on the unit in every machine with this unit and these parameters. -/
theorem unitStep_dec_of_same_unit {s s' t : State} (hdec : s'.dec = s.dec) (hpar : s'.par = s.par)
    (h : unitStep .dec s = .next t) : unitStep .dec s' = .next (s'.withDec t.dec) := by
  have hsame : fetch .dec s' = fetch .dec s := DecAgree.fetch_eq (hdec ▸ DecAgree.refl s.dec)
  cases hf : fetch .dec s with
  | finish =>
    rw [unitStep_of_finish hf] at h
    cases h
    rw [unitStep_of_finish (hsame.trans hf)]
    simp only [finishUnit, hdec, State.withDec_dec]
  | record i =>
    rw [unitStep_of_record hf, exec_dec (isDec_of_fetch_dec hf)] at h
    rw [unitStep_of_record (hsame.trans hf), exec_dec (isDec_of_fetch_dec hf)]
    obtain ⟨hrun, hlt, hcase⟩ := decRecord_eq_next.mp h
    refine decRecord_eq_next.mpr ?_
    rw [hdec, hpar]
    refine ⟨hrun, hlt, ?_⟩
    rcases hcase with ⟨hshort, rfl⟩ | ⟨hlong, hroom, rfl⟩
    · exact .inl ⟨hshort, by simp only [takeTruncated, hdec, State.withDec_dec]⟩
    · exact .inr ⟨hlong, hroom, rfl⟩
  | short need rem =>
    rw [unitStep_of_short hf] at h
    cases h
    rw [unitStep_of_short (hsame.trans hf)]
    simp only [takeTruncated, hdec, State.withDec_dec]
  | stop f => rw [unitStep_of_stop hf] at h; cases h

/-- Settles O36: each unit's step replaces its own unit, by one that depends on it and the parameters alone. -/
theorem unitsDoNotInterfere : Obligations.UnitsDoNotInterfere := by
  refine ⟨fun _ _ => unitStep_enc_frame, fun _ _ => unitStep_dec_frame, fun _ _ _ => unitStep_enc_of_same_unit,
    fun _ _ _ => unitStep_dec_of_same_unit, ?_⟩
  intro s a b ha hb
  have hframea : a = s.withEnc a.enc := unitStep_enc_frame ha
  have hframeb : b = s.withDec b.dec := unitStep_dec_frame hb
  obtain ⟨hdec, hpara⟩ : a.dec = s.dec ∧ a.par = s.par := by rw [hframea]; exact ⟨rfl, rfl⟩
  obtain ⟨henc, hparb⟩ : b.enc = s.enc ∧ b.par = s.par := by rw [hframeb]; exact ⟨rfl, rfl⟩
  have hsame : b.withEnc a.enc = a.withDec b.dec := by rw [hframea, hframeb]; rfl
  exact ⟨a.withDec b.dec, unitStep_dec_of_same_unit hdec hpara hb,
    (unitStep_enc_of_same_unit henc hparb ha).trans (by rw [hsame])⟩

/-! ### What a step of the machine does to each unit -/

/-- What a step of the machine does to the encoder: nothing, a start, `reset`, or the unit's own step. -/
theorem step_enc_next {s t : State} (h : step s = .next t) :
    t.enc = s.enc ∨
    (∃ vs ts, s.turns = .host (.encStart vs) :: ts ∧ s.enc.ph ≠ .run ∧ t.enc = s.enc.start vs) ∨
    (∃ ts, s.turns = .host .reset :: ts ∧ t.enc = Enc.reset) ∨
    ∃ s', nextTurn s = some (.unit .enc, s') ∧ s.enc.ph = .run ∧
      ((s.enc.idx = s.enc.n ∧ t.enc = s.enc.finish) ∨
       ∃ v, s.enc.idx < s.enc.n ∧ t.enc = s.enc.emit (encode (selectRecord v))) := by
  rcases step_cases s with ⟨-, -, -, hstep⟩ | ⟨m, ts, hts, hstep⟩ | ⟨u, s', hnext, hstep, hs'⟩
  · cases hstep.symm.trans h; exact .inl rfl
  · rcases hostMove_next (hstep.symm.trans h) with ⟨rfl, rfl⟩ | ⟨vs, rfl, hph, -, rfl⟩ | ⟨bs, -, -, -, rfl⟩ |
      ⟨bs, -, -, -, rfl⟩ | ⟨vs, -, -, -, rfl⟩
    · exact .inr (.inr (.inl ⟨ts, hts, rfl⟩))
    · exact .inr (.inl ⟨vs, ts, hts, hph, rfl⟩)
    all_goals exact .inl rfl
  · have henc : s'.enc = s.enc := by rcases hs' with ⟨ts, -, rfl⟩ | ⟨-, rfl⟩ <;> rfl
    cases u with
    | enc =>
      obtain ⟨hrun, hcase⟩ := unitStep_enc_next (hstep.symm.trans h)
      rw [henc] at hrun hcase
      refine .inr (.inr (.inr ⟨s', hnext, hrun, ?_⟩))
      rcases hcase with ⟨hend, rfl⟩ | ⟨v, hlt, -, -, rfl⟩
      exacts [.inl ⟨hend, rfl⟩, .inr ⟨v, hlt, rfl⟩]
    | dec =>
      rw [unitStep_dec_frame (hstep.symm.trans h)]
      exact .inl henc

/-- What a step of the machine does to the decoder: nothing, a start, `reset`, or the unit's own step. -/
theorem step_dec_next {s t : State} (h : step s = .next t) :
    t.dec = s.dec ∨
    (∃ bs ts, s.turns = .host (.decStart bs) :: ts ∧ s.dec.ph ≠ .run ∧ t.dec = s.dec.start bs) ∨
    (∃ ts, s.turns = .host .reset :: ts ∧ t.dec = Dec.reset) ∨
    ∃ s', nextTurn s = some (.unit .dec, s') ∧ s.dec.ph = .run ∧
      ((s.dec.cur = s.dec.len ∧ t.dec = s.dec.finish) ∨
       (∃ b, s.dec.len - s.dec.cur < recLen b ∧ t.dec = s.dec.raiseTruncated (recLen b) (s.dec.len - s.dec.cur)) ∨
       ∃ i, isDec i = true ∧ t.dec = s.dec.append (encode i).length (carried i)) := by
  rcases step_cases s with ⟨-, -, -, hstep⟩ | ⟨m, ts, hts, hstep⟩ | ⟨u, s', hnext, hstep, hs'⟩
  · cases hstep.symm.trans h; exact .inl rfl
  · rcases hostMove_next (hstep.symm.trans h) with ⟨rfl, rfl⟩ | ⟨vs, -, -, -, rfl⟩ | ⟨bs, -, -, -, rfl⟩ |
      ⟨bs, rfl, hph, -, rfl⟩ | ⟨vs, -, -, -, rfl⟩
    · exact .inr (.inr (.inl ⟨ts, hts, rfl⟩))
    · exact .inl rfl
    · exact .inl rfl
    · exact .inr (.inl ⟨bs, ts, hts, hph, rfl⟩)
    · exact .inl rfl
  · have hdec : s'.dec = s.dec := by rcases hs' with ⟨ts, -, rfl⟩ | ⟨-, rfl⟩ <;> rfl
    cases u with
    | enc =>
      rw [unitStep_enc_frame (hstep.symm.trans h)]
      exact .inl hdec
    | dec =>
      obtain ⟨hrun, hcase⟩ := unitStep_dec_next (hstep.symm.trans h)
      rw [← hdec]
      refine .inr (.inr (.inr ⟨s', hnext, hrun, ?_⟩))
      rcases hcase with ⟨hend, rfl⟩ | ⟨b, -, -, hshort, rfl⟩ | ⟨i, hi, -, -, -, -, rfl⟩
      exacts [.inl ⟨hend, rfl⟩, .inr (.inl ⟨b, hshort, rfl⟩), .inr (.inr ⟨i, hi, rfl⟩)]

/-- Settles O37: only a start, the finishing step, the error step and `reset` write a phase. -/
theorem phaseTransitions : Obligations.PhaseTransitions := by
  intro s t h
  constructor
  · rcases step_enc_next h with he | ⟨vs, ts, hts, hph, he⟩ | ⟨ts, hts, he⟩ | ⟨s', hnext, hrun, ⟨hend, he⟩ | ⟨v, -, he⟩⟩ <;>
      rw [he]
    · exact .inl rfl
    · exact .inr (.inl ⟨hph, rfl, vs, ts, hts⟩)
    · exact .inr (.inr (.inr ⟨rfl, ts, hts⟩))
    · exact .inr (.inr (.inl ⟨hrun, rfl, hend, s', hnext⟩))
    · exact .inl rfl
  · rcases step_dec_next h with hd | ⟨bs, ts, hts, hph, hd⟩ | ⟨ts, hts, hd⟩ |
      ⟨s', hnext, hrun, ⟨-, hd⟩ | ⟨b, -, hd⟩ | ⟨i, -, hd⟩⟩ <;> rw [hd]
    · exact .inl rfl
    · exact .inr (.inl ⟨hph, rfl, bs, ts, hts⟩)
    · exact .inr (.inr (.inr ⟨rfl, ts, hts⟩))
    · exact .inr (.inr (.inl ⟨hrun, rfl, s', hnext⟩))
    · exact .inr (.inr (.inl ⟨hrun, rfl, s', hnext⟩))
    · exact .inl rfl

/-- A step that changes `ERR` is the error step, which sets it, or a start or `reset`, which clear it (R30). -/
theorem step_err_cases {s t : State} (h : step s = .next t) :
    t.dec.err = s.dec.err ∨
    (t.dec.err = .noError ∧ ∃ ts, (∃ bs, s.turns = .host (.decStart bs) :: ts) ∨ s.turns = .host .reset :: ts) ∨
    (t.dec.err = .truncatedRecord ∧ s.dec.ph = .run ∧ t.dec.ph = .done ∧ t.dec.ocnt = 0 ∧ t.dec.cur = s.dec.cur ∧
      ∃ s', nextTurn s = some (.unit .dec, s')) := by
  rcases step_dec_next h with hd | ⟨bs, ts, hts, -, hd⟩ | ⟨ts, hts, hd⟩ |
    ⟨s', hnext, hrun, ⟨-, hd⟩ | ⟨b, -, hd⟩ | ⟨i, -, hd⟩⟩ <;> rw [hd]
  · exact .inl rfl
  · exact .inr (.inl ⟨rfl, ts, .inl ⟨bs, hts⟩⟩)
  · exact .inr (.inl ⟨rfl, ts, .inr hts⟩)
  · exact .inl rfl
  · exact .inr (.inr ⟨rfl, hrun, rfl, rfl, rfl, s', hnext⟩)
  · exact .inl rfl

/-- Settles O38. -/
theorem errorFlagSetAndCleared : Obligations.ErrorFlagSetAndCleared := by
  intro s t h
  rcases step_err_cases h with hsame | ⟨hclear, hwho⟩ | ⟨hset, hwho⟩
  · exact ⟨fun h0 h1 => by simp [hsame, h0] at h1, fun h1 h0 => by simp [hsame, h1] at h0⟩
  · exact ⟨fun _ h1 => by simp [hclear] at h1, fun _ _ => hwho⟩
  · exact ⟨fun _ _ => hwho, fun _ h0 => by simp [hset] at h0⟩

/-- Settles O39: only a record step moves a position, by the length of a record that fits. -/
theorem positionsAdvance : Obligations.PositionsAdvance := by
  constructor
  · intro s t h
    obtain ⟨-, ⟨-, rfl⟩ | ⟨b, -, -, -, rfl⟩ | ⟨i, hi, -, hfit, -, -, rfl⟩⟩ := unitStep_dec_next h
    · exact ⟨rfl, .inl rfl⟩
    · exact ⟨rfl, .inl rfl⟩
    · have hlen := encode_length_of_isDec hi
      refine ⟨rfl, .inr ⟨?_, hfit⟩⟩
      simp only [State.withDec_dec, Dec.append_cur]
      omega
  · intro s t h
    obtain ⟨-, ⟨-, rfl⟩ | ⟨v, hlt, -, -, rfl⟩⟩ := unitStep_enc_next h
    · exact ⟨rfl, .inl rfl⟩
    · exact ⟨rfl, .inr ⟨rfl, hlt⟩⟩

/-! ### Where a record operation stops (U9) -/

theorem encRecord_of_not_running {s : State} (out : List Byte) (h : s.enc.ph ≠ .run) :
    encRecord out s = .fault (.unitNotRunning .enc) := by
  simp [encRecord, h]

theorem encRecord_of_used_up {s : State} (out : List Byte) (hrun : s.enc.ph = .run) (h : s.enc.n ≤ s.enc.idx) :
    encRecord out s = .fault (.readOutOfBounds .iv) := by
  simp [encRecord, hrun, h.not_gt]

theorem encRecord_of_no_room {s : State} {out : List Byte} (hrun : s.enc.ph = .run) (hlt : s.enc.idx < s.enc.n)
    (h : within (obCapacity s.par) (s.enc.olen + out.length) = false) :
    encRecord out s = .fault (.writeBeyondCapacity .ob) := by
  simp [encRecord, hrun, hlt, h]

theorem decRecord_of_not_running {s : State} (need : Nat) (v : Value) (h : s.dec.ph ≠ .run) :
    decRecord need v s = .fault (.unitNotRunning .dec) := by
  simp [decRecord, h]

theorem decRecord_of_used_up {s : State} (need : Nat) (v : Value) (hrun : s.dec.ph = .run)
    (h : s.dec.len ≤ s.dec.cur) : decRecord need v s = .fault (.readOutOfBounds .ib) := by
  simp [decRecord, hrun, h.not_gt]

theorem decRecord_of_no_room {s : State} {need : Nat} (v : Value) (hrun : s.dec.ph = .run)
    (hlt : s.dec.cur < s.dec.len) (hfit : s.dec.cur + need ≤ s.dec.len)
    (h : within s.par.bmax (s.dec.ocnt + 1) = false) : decRecord need v s = .fault (.writeBeyondCapacity .ov) := by
  have hlong : ¬ s.dec.len - s.dec.cur < need := by omega
  simp [decRecord, hrun, hlt, hlong, h]

/-- Settles O18: every record operation is its unit's shared step, and these are that step's stops. -/
theorem recordOperationFaults : Obligations.RecordOperationFaults := by
  intro s i
  refine ⟨fun hi h => ?_, fun hi hrun h => ?_, fun hi h => ?_, fun hi hrun h => ?_, fun hi hrun hfit h => ?_,
    fun hi hrun hlt h => ?_⟩
  · rw [exec_dec hi, decRecord_of_not_running _ _ h]
  · rw [exec_dec hi, decRecord_of_used_up _ _ hrun h]
  · rw [exec_enc hi, encRecord_of_not_running _ h]
  · rw [exec_enc hi, encRecord_of_used_up _ hrun h]
  · have hlen := encode_length_of_isDec hi
    rw [exec_dec hi, decRecord_of_no_room _ hrun (by omega) hfit h]
  · rw [exec_enc hi, encRecord_of_no_room hrun hlt h]

/-! ### Who moves next -/

theorem step_of_host_turn {s : State} {m : HostMove} {ts : List Turn} (h : s.turns = .host m :: ts) :
    step s = hostMove m (s.withTurns ts) := by
  simp [step, nextTurn, h]

theorem step_of_unit_turn {s : State} {u : UnitId} {ts : List Turn} (h : s.turns = .unit u :: ts) :
    step s = unitStep u (s.withTurns ts) := by
  simp [step, nextTurn, h]

theorem step_of_enc_running {s : State} (h : s.turns = []) (henc : s.enc.ph = .run) : step s = unitStep .enc s := by
  simp [step, nextTurn, h, henc]

theorem step_of_dec_running {s : State} (h : s.turns = []) (henc : s.enc.ph ≠ .run) (hdec : s.dec.ph = .run) :
    step s = unitStep .dec s := by
  simp [step, nextTurn, h, henc, hdec]

theorem step_of_none_running {s : State} (h : s.turns = []) (henc : s.enc.ph ≠ .run) (hdec : s.dec.ph ≠ .run) :
    step s = .next s := by
  simp [step, nextTurn, h, henc, hdec]

/-- Settles O23. -/
theorem stepFollowsTurns : Obligations.StepFollowsTurns := fun _ _ =>
  ⟨fun _ => step_of_host_turn, fun _ => step_of_unit_turn, step_of_enc_running, step_of_dec_running,
    step_of_none_running⟩

/-! ### The reset state -/

/-- Settles O24, by the definition of the reset state. -/
theorem resetStateRegisters : Obligations.ResetStateRegisters :=
  ⟨rfl, rfl, rfl, rfl, rfl, rfl, rfl, rfl, rfl, rfl, rfl⟩

/-- An element that nothing has written has no value to read (log 5). -/
theorem memReadOne_of_unwritten {α : Type} {m : Memory α} {valid a : Nat} (b : Space) (ha : a < valid)
    (h : memGet m a = none) : memReadOne b m valid a = .error (.readUnwritten b) := by
  simp [memReadOne, ha, h]

/-- Settles O25: the buffers of the reset state list nothing. -/
theorem resetBuffersHoldNoValue : Obligations.ResetBuffersHoldNoValue := fun a =>
  ⟨⟨memGet_nil a, memGet_nil a, memGet_nil a, memGet_nil a⟩, fun _ ha =>
    ⟨memReadOne_of_unwritten .iv ha (memGet_nil a), memReadOne_of_unwritten .ib ha (memGet_nil a)⟩⟩

/-! ### The host's moves -/

theorem hostMove_encStart_allowed {s : State} {vs : List Value} (hph : s.enc.ph ≠ .run)
    (hcap : within s.par.nmax vs.length = true) : hostMove (.encStart vs) s = .next (s.withEnc (s.enc.start vs)) := by
  simp [hostMove, hostEncStart, hph, hcap]

theorem hostMove_encStart_running {s : State} (vs : List Value) (hph : s.enc.ph = .run) :
    hostMove (.encStart vs) s = .refused (.startWhileRunning .enc) := by
  simp [hostMove, hostEncStart, hph]

theorem hostMove_encStart_too_long {s : State} {vs : List Value} (hph : s.enc.ph ≠ .run)
    (hcap : within s.par.nmax vs.length = false) : hostMove (.encStart vs) s = .refused (.startTooLong .enc) := by
  simp [hostMove, hostEncStart, hph, hcap]

theorem hostMove_encRead_done {s : State} {bs : List Byte} (hph : s.enc.ph = .done)
    (hbs : memSlice s.enc.ob 0 s.enc.olen = some bs) : hostMove .encRead s = .next (s.receive (.encoded bs)) := by
  have hread : memRead .ob s.enc.ob s.enc.olen 0 s.enc.olen = .ok bs := memRead_eq_ok.mpr ⟨by omega, hbs⟩
  simp [hostMove, hostEncRead, hph, hread]

theorem hostMove_encRead_not_done {s : State} (hph : s.enc.ph ≠ .done) :
    hostMove .encRead s = .refused (.readNotDone .enc) := by
  simp [hostMove, hostEncRead, hph]

theorem hostMove_decStart_allowed {s : State} {bs : List Byte} (hph : s.dec.ph ≠ .run)
    (hcap : within s.par.bmax bs.length = true) : hostMove (.decStart bs) s = .next (s.withDec (s.dec.start bs)) := by
  simp [hostMove, hostDecStart, hph, hcap]

theorem hostMove_decStart_running {s : State} (bs : List Byte) (hph : s.dec.ph = .run) :
    hostMove (.decStart bs) s = .refused (.startWhileRunning .dec) := by
  simp [hostMove, hostDecStart, hph]

theorem hostMove_decStart_too_long {s : State} {bs : List Byte} (hph : s.dec.ph ≠ .run)
    (hcap : within s.par.bmax bs.length = false) : hostMove (.decStart bs) s = .refused (.startTooLong .dec) := by
  simp [hostMove, hostDecStart, hph, hcap]

theorem hostMove_decRead_done {s : State} {vs : List Value} (hph : s.dec.ph = .done)
    (hvs : memSlice s.dec.ov 0 s.dec.ocnt = some vs) :
    hostMove .decRead s = .next (s.receive (.decoded s.dec.err s.dec.exp s.dec.avl vs)) := by
  have hread : memRead .ov s.dec.ov s.dec.ocnt 0 s.dec.ocnt = .ok vs := memRead_eq_ok.mpr ⟨by omega, hvs⟩
  simp [hostMove, hostDecRead, hph, hread]

theorem hostMove_decRead_not_done {s : State} (hph : s.dec.ph ≠ .done) :
    hostMove .decRead s = .refused (.readNotDone .dec) := by
  simp [hostMove, hostDecRead, hph]

/-- Settles O27. -/
theorem encStartLoadsAndRuns : Obligations.EncStartLoadsAndRuns := fun s vs hph hcap =>
  ⟨_, hostMove_encStart_allowed hph hcap, memSlice_memWrite_self s.enc.iv 0 vs,
    fun _ ha => memGet_memWrite_outside s.enc.iv vs (.inr (by omega)), rfl⟩

/-- Settles O28. -/
theorem decStartLoadsAndRuns : Obligations.DecStartLoadsAndRuns := fun s bs hph hcap =>
  ⟨_, hostMove_decStart_allowed hph hcap, memSlice_memWrite_self s.dec.ib 0 bs,
    fun _ ha => memGet_memWrite_outside s.dec.ib bs (.inr (by omega)), rfl⟩

/-- Settles O29. -/
theorem readsReturnResultsAndChangeNothing : Obligations.ReadsReturnResultsAndChangeNothing := fun _ =>
  ⟨fun _ => hostMove_encRead_done, fun _ => hostMove_decRead_done⟩

/-- Settles O30. -/
theorem movesOutsideTheTableRefused : Obligations.MovesOutsideTheTableRefused := fun _ =>
  ⟨hostMove_encStart_running, fun _ => hostMove_encStart_too_long, hostMove_encRead_not_done,
    hostMove_decStart_running, fun _ => hostMove_decStart_too_long, hostMove_decRead_not_done⟩

end Sys2Proof.Machine
end

section
/-! PROOFS. The buffers and the parameters (20_memory.md): who can change each of them. -/

namespace Sys2Proof.Machine

/-! ### The parameters are the build's (R7) -/

theorem hostMove_par {m : HostMove} {s t : State} (h : hostMove m s = .next t) : t.par = s.par := by
  rcases hostMove_next h with ⟨-, rfl⟩ | ⟨vs, -, -, -, rfl⟩ | ⟨bs, -, -, -, rfl⟩ | ⟨bs, -, -, -, rfl⟩ |
    ⟨vs, -, -, -, rfl⟩ <;> rfl

theorem unitStep_par {u : UnitId} {s t : State} (h : unitStep u s = .next t) : t.par = s.par := by
  cases u with
  | enc => rw [unitStep_enc_frame h, State.withEnc_par]
  | dec => rw [unitStep_dec_frame h, State.withDec_par]

theorem step_par {s t : State} (h : step s = .next t) : t.par = s.par := by
  rcases step_cases s with ⟨-, -, -, hstep⟩ | ⟨m, ts, -, hstep⟩ | ⟨u, s', -, hstep, hs'⟩
  · cases hstep.symm.trans h; rfl
  · exact (hostMove_par (hstep.symm.trans h)).trans (State.withTurns_par s ts)
  · have hpar : s'.par = s.par := by rcases hs' with ⟨ts, -, rfl⟩ | ⟨-, rfl⟩ <;> rfl
    exact (unitStep_par (hstep.symm.trans h)).trans hpar

/-! ### Who writes each buffer (R51, R65) -/

/-- `ENC.IV` is the host's to write: neither step of the encoder does. -/
theorem step_iv_cases {s t : State} (h : step s = .next t) :
    t.enc.iv = s.enc.iv ∨
    ∃ ts, (∃ vs, s.turns = .host (.encStart vs) :: ts) ∨ s.turns = .host .reset :: ts := by
  rcases step_enc_next h with he | ⟨vs, ts, hts, -, -⟩ | ⟨ts, hts, -⟩ | ⟨s', -, -, ⟨-, he⟩ | ⟨v, -, he⟩⟩
  · exact .inl (by rw [he])
  · exact .inr ⟨ts, .inl ⟨vs, hts⟩⟩
  · exact .inr ⟨ts, .inr hts⟩
  · exact .inl (by rw [he, Enc.finish_iv])
  · exact .inl (by rw [he, Enc.emit_iv])

/-- `DEC.IB` is the host's to write: none of the decoder's steps does, the error step included. -/
theorem step_ib_cases {s t : State} (h : step s = .next t) :
    t.dec.ib = s.dec.ib ∨
    ∃ ts, (∃ bs, s.turns = .host (.decStart bs) :: ts) ∨ s.turns = .host .reset :: ts := by
  rcases step_dec_next h with hd | ⟨bs, ts, hts, -, -⟩ | ⟨ts, hts, -⟩ |
    ⟨s', -, -, ⟨-, hd⟩ | ⟨b, -, hd⟩ | ⟨i, -, hd⟩⟩
  · exact .inl (by rw [hd])
  · exact .inr ⟨ts, .inl ⟨bs, hts⟩⟩
  · exact .inr ⟨ts, .inr hts⟩
  · exact .inl (by rw [hd, Dec.finish_ib])
  · exact .inl (by rw [hd, Dec.raiseTruncated_ib])
  · exact .inl (by rw [hd, Dec.append_ib])

/-- `ENC.OB` is the encoder's to write: a start leaves the last output in place. -/
theorem step_ob_cases {s t : State} (h : step s = .next t) :
    t.enc.ob = s.enc.ob ∨ (∃ s', nextTurn s = some (.unit .enc, s')) ∨ ∃ ts, s.turns = .host .reset :: ts := by
  rcases step_enc_next h with he | ⟨vs, ts, -, -, he⟩ | ⟨ts, hts, -⟩ | ⟨s', hnext, -, -⟩
  · exact .inl (by rw [he])
  · exact .inl (by rw [he, Enc.start_ob])
  · exact .inr (.inr ⟨ts, hts⟩)
  · exact .inr (.inl ⟨s', hnext⟩)

/-- `DEC.OV` is the decoder's to write: a start leaves the last output in place. -/
theorem step_ov_cases {s t : State} (h : step s = .next t) :
    t.dec.ov = s.dec.ov ∨ (∃ s', nextTurn s = some (.unit .dec, s')) ∨ ∃ ts, s.turns = .host .reset :: ts := by
  rcases step_dec_next h with hd | ⟨bs, ts, -, -, hd⟩ | ⟨ts, hts, -⟩ | ⟨s', hnext, -, -⟩
  · exact .inl (by rw [hd])
  · exact .inl (by rw [hd, Dec.start_ov])
  · exact .inr (.inr ⟨ts, hts⟩)
  · exact .inr (.inl ⟨s', hnext⟩)

/-- Settles O40: each buffer is as it was, or one of the moves that own it was taken. -/
theorem buffersWrittenOnlyByTheirOwner : Obligations.BuffersWrittenOnlyByTheirOwner := fun _ _ h =>
  ⟨step_par h, (step_iv_cases h).resolve_left, (step_ib_cases h).resolve_left, (step_ob_cases h).resolve_left,
    (step_ov_cases h).resolve_left⟩

end Sys2Proof.Machine
end

section
/-! PROOFS. The record encodings (30_encoding.md): what the decoder reads, which operation the encoder selects, what a
payload gathers to after splitting, and from these that decoding and encoding agree. -/

namespace Sys2Proof.Machine

/-! ### What the decoder reads -/

/-- A decoder operation's bytes are read back as it (R84, R85). -/
theorem decode_encode_append {i : Instr} (hd : isDec i = true) (hw : i.wf = true) (rest : List Byte) :
    decode (encode i ++ rest) = .record i rest := by
  cases i with
  | decSmall u =>
    obtain ⟨hm, hl⟩ : u ≠ tagMedium ∧ u ≠ tagLarge := by simpa [Instr.wf] using hw
    simp [encode, decode, hm, hl]
  | decMedium p0 p1 => rfl
  | decLarge p0 p1 p2 p3 => rfl
  | encSmall _ => cases hd
  | encMedium _ => cases hd
  | encLarge _ => cases hd

/-- A record is read exactly off the bytes of a well-formed decoder operation (R84, R85). -/
theorem decode_eq_record_iff {bs : List Byte} {i : Instr} {rest : List Byte} :
    decode bs = .record i rest ↔ isDec i = true ∧ i.wf = true ∧ encode i ++ rest = bs := by
  constructor
  · intro h
    fun_cases decode bs with
    | case1 => simp [decode] at h
    | case2 p0 p1 p2 p3 more => cases h; exact ⟨rfl, rfl, rfl⟩
    | case3 => simp [decode] at h
    | case4 p0 p1 more => cases h; exact ⟨rfl, rfl, rfl⟩
    | case5 _ _ hne => simp [decode, hne] at h
    | case6 t more hl hm =>
      simp only [decode, if_neg hl, if_neg hm] at h
      cases h
      exact ⟨rfl, by simp [Instr.wf, hl, hm], rfl⟩
  · rintro ⟨hd, hw, rfl⟩
    exact decode_encode_append hd hw rest

/-- No first byte and no payload is illegal (R93): a record that is not cut short is read, whatever follows it. -/
theorem decode_whole_append {t : Byte} {payload : List Byte} (h : payload.length = recLen t - 1) (rest : List Byte) :
    ∃ i, decode (t :: payload ++ rest) = .record i rest := by
  obtain ⟨i, hi, -, -⟩ := decode_whole h
  obtain ⟨hd, hw, hbytes⟩ := decode_eq_record_iff.mp hi
  rw [List.append_nil] at hbytes
  exact ⟨i, by rw [← hbytes, decode_encode_append hd hw]⟩

/-- Settles O9: a record read is a decoder operation's bytes, and a whole record is read. -/
theorem encodeOfDecodedRecord : Obligations.EncodeOfDecodedRecord :=
  ⟨fun _ _ _ => decode_eq_record_iff.mp, fun _ _ rest h => decode_whole_append h rest⟩

/-! ### Which operation the encoder selects -/

theorem selectRecord_eq_encSmall_iff (v : Value) : selectRecord v = .encSmall v ↔ fitsSmall v = true := by
  unfold selectRecord
  split_ifs <;> simp [*]

theorem selectRecord_eq_encMedium_iff (v : Value) :
    selectRecord v = .encMedium v ↔ fitsSmall v = false ∧ fitsMedium v = true := by
  unfold selectRecord
  split_ifs <;> simp [*]

theorem selectRecord_eq_encLarge_iff (v : Value) :
    selectRecord v = .encLarge v ↔ fitsSmall v = false ∧ fitsMedium v = false := by
  unfold selectRecord
  split_ifs <;> simp [*]

@[simp] theorem wf_selectRecord (v : Value) : (selectRecord v).wf = true := by
  unfold selectRecord
  split_ifs <;> simp [Instr.wf, *]

@[simp] theorem carried_selectRecord (v : Value) : carried (selectRecord v) = v := by
  unfold selectRecord
  split_ifs <;> rfl

/-- An encoder operation is well-formed only for values it is selected for (R90). -/
theorem selectRecord_carried {i : Instr} (he : isDec i = false) (hw : i.wf = true) : selectRecord (carried i) = i := by
  cases i with
  | decSmall _ => cases he
  | decMedium _ _ => cases he
  | decLarge _ _ _ _ => cases he
  | encSmall v => exact (selectRecord_eq_encSmall_iff v).mpr hw
  | encMedium v => exact (selectRecord_eq_encMedium_iff v).mpr (by simpa [Instr.wf] using hw)
  | encLarge v => exact (selectRecord_eq_encLarge_iff v).mpr (by simpa [Instr.wf] using hw)

/-- Settles O6: the selection by its tests, and the tests as ranges. -/
theorem encoderFormatChoice : Obligations.EncoderFormatChoice := by
  intro v
  refine ⟨(selectRecord_eq_encSmall_iff v).trans (fitsSmall_iff v), ?_, ?_, wf_selectRecord v,
    carried_selectRecord v, isDec_selectRecord v⟩
  · rw [selectRecord_eq_encMedium_iff, ← Bool.not_eq_true, fitsSmall_iff, fitsMedium_iff]
    simp only [smallMin, smallMax, mediumMin, mediumMax]
    omega
  · rw [selectRecord_eq_encLarge_iff, ← Bool.not_eq_true, ← Bool.not_eq_true, fitsSmall_iff, fitsMedium_iff]
    simp only [smallMin, smallMax, mediumMin, mediumMax]
    omega

/-! ### Gathering a split payload -/

/-- The low byte of a small value, read as signed, is the value (R112). -/
theorem sint8_u8 {v : Int} (h1 : smallMin ≤ v) (h2 : v ≤ smallMax) : sint8 (u8 v) = v := by
  simp only [smallMin, smallMax] at h1 h2
  rw [sint8_eq_toInt, u8_eq_ofInt, BitVec.toInt_ofInt_eq_self (by decide) (by omega) (by omega)]

theorem byteK_toNat (v : Value) {k : Nat} (h : k < 4) : (byteK k v).toNat = v.toNat / 256 ^ k % 256 := by
  rw [byteK_eq_extract v h, BitVec.extractLsb'_toNat, Nat.shiftRight_eq_div_pow, Nat.pow_mul]

/-- The payload of a medium value gathers to the value (R119). -/
theorem gather16_split {v : Value} (h1 : mediumMin ≤ v.toInt) (h2 : v.toInt ≤ mediumMax) :
    gather16 (byteK 0 v) (byteK 1 v) = v.toInt := by
  have hv := v.isLt
  simp only [gather16, alignHigh_one, BitVec.toInt_eq_toNat_cond, byteK_toNat, Nat.reduceLT, mediumMin, mediumMax]
    at h1 h2 ⊢
  split at h1 <;> split <;> omega

/-- The payload of any value's large record gathers to the value (R119). -/
theorem gather32_split (v : Value) : gather32 (byteK 0 v) (byteK 1 v) (byteK 2 v) (byteK 3 v) = v.toInt := by
  have hv := v.isLt
  simp only [gather32, alignHigh_three, BitVec.toInt_eq_toNat_cond, byteK_toNat, Nat.reduceLT]
  split <;> split <;> omega

/-! ### Decode and encode agree -/

/-- The decoder operation that reads the bytes of a record operation. -/
def decoderForm : Instr → Instr
  | .encSmall v => .decSmall (u8 v.toInt)
  | .encMedium v => .decMedium (byteK 0 v) (byteK 1 v)
  | .encLarge v => .decLarge (byteK 0 v) (byteK 1 v) (byteK 2 v) (byteK 3 v)
  | .decSmall u => .decSmall u
  | .decMedium p0 p1 => .decMedium p0 p1
  | .decLarge p0 p1 p2 p3 => .decLarge p0 p1 p2 p3

@[simp] theorem isDec_decoderForm (i : Instr) : isDec (decoderForm i) = true := by
  cases i <;> rfl

@[simp] theorem encode_decoderForm (i : Instr) : encode (decoderForm i) = encode i := by
  cases i <;> rfl

/-- The low byte of a small value is never a tag (R92). -/
theorem wf_decoderForm {i : Instr} (hw : i.wf = true) : (decoderForm i).wf = true := by
  cases i with
  | encSmall v =>
    obtain ⟨h1, h2⟩ := (fitsSmall_iff v).mp hw
    have hback : sint8 (u8 v.toInt) = v.toInt := sint8_u8 h1 h2
    simp only [smallMin] at h1
    have hm : u8 v.toInt ≠ tagMedium := fun h => by
      rw [h, show sint8 tagMedium = -128 by decide] at hback
      omega
    have hl : u8 v.toInt ≠ tagLarge := fun h => by
      rw [h, show sint8 tagLarge = -127 by decide] at hback
      omega
    simp [decoderForm, Instr.wf, hm, hl]
  | encMedium v => rfl
  | encLarge v => rfl
  | decSmall u => exact hw
  | decMedium p0 p1 => rfl
  | decLarge p0 p1 p2 p3 => rfl

/-- Reading an encoder operation's record gives back its value (R86, R87, R88). -/
theorem carried_decoderForm {i : Instr} (hw : i.wf = true) : carried (decoderForm i) = carried i := by
  cases i with
  | encSmall v =>
    obtain ⟨h1, h2⟩ := (fitsSmall_iff v).mp hw
    simp [decoderForm, carried, sint8_u8 h1 h2]
  | encMedium v =>
    obtain ⟨-, hfits⟩ : fitsSmall v = false ∧ fitsMedium v = true := by simpa [Instr.wf] using hw
    obtain ⟨h1, h2⟩ := (fitsMedium_iff v).mp hfits
    simp [decoderForm, carried, gather16_split h1 h2]
  | encLarge v => simp [decoderForm, carried, gather32_split]
  | decSmall u => rfl
  | decMedium p0 p1 => rfl
  | decLarge p0 p1 p2 p3 => rfl

/-- Settles O8: a record operation's bytes are those of its decoder form, which is read back as itself. -/
theorem decodeOfEncodedRecord : Obligations.DecodeOfEncodedRecord := by
  intro i rest hw
  have hread : decode (encode i ++ rest) = .record (decoderForm i) rest := by
    rw [← encode_decoderForm i]
    exact decode_encode_append (isDec_decoderForm i) (wf_decoderForm hw) rest
  exact ⟨fun hd => decode_encode_append hd hw rest, fun he => ⟨selectRecord_carried he hw,
    decoderForm i, isDec_decoderForm i, hread, carried_decoderForm hw, encode_decoderForm i⟩⟩

/-- Settles O11: the decoder's words by reading back their operations, the others by evaluation. -/
theorem writtenOutWordsDecode : Obligations.WrittenOutWordsDecode :=
  ⟨by decide, decode_encode_append (i := .decMedium 0x18#8 0xFC#8) rfl rfl [],
    decode_encode_append (i := .decLarge 0x60#8 0x79#8 0xFE#8 0xFF#8) rfl rfl [0x05#8],
    selectRecord_carried (i := .encSmall (toValue (-100))) rfl (by decide), by decide, by decide, by decide, by decide,
    by decide⟩

end Sys2Proof.Machine
end

section
/-! PROOFS. The data-path primitives (40_primitives.md): a byte as signed and back, the words the two gathers make, the
marshaller in both directions, and the range tests on bits. -/

namespace Sys2Proof.Machine

/-! ### One byte, signed and unsigned (R110 to R112) -/

/-- Reading a byte as signed loses nothing (R112). -/
@[simp] theorem u8_sint8 (u : Byte) : u8 (sint8 u) = u := by
  rw [u8_eq_ofInt, sint8_eq_toInt, BitVec.ofInt_toInt]

theorem sint8_inj {u t : Byte} : sint8 u = sint8 t ↔ u = t := by
  rw [sint8_eq_toInt, sint8_eq_toInt, BitVec.toInt_inj]

/-- `sint8_u8` beyond the small domain: on every value that a byte can hold (R112). -/
theorem sint8_u8_of_byte_range {v : Int} (h1 : -128 ≤ v) (h2 : v ≤ 127) : sint8 (u8 v) = v := by
  rw [sint8_eq_toInt, u8_eq_ofInt, BitVec.toInt_ofInt_eq_self (by decide) (by omega) (by omega)]

theorem sint8_neg_iff (u : Byte) : sint8 u < 0 ↔ u.getLsbD 7 = true := by
  rw [sint8_eq_toInt, ← BitVec.msb_eq_getLsbD_last, BitVec.msb_eq_toInt, decide_eq_true_iff]

/-- The two signed bytes below the small domain are -128 and -127, the tags (R92, R112). -/
theorem sint8_mem_small_iff (u : Byte) :
    (-126 ≤ sint8 u ∧ sint8 u ≤ 127) ↔ (u ≠ 0x80#8 ∧ u ≠ 0x81#8) := by
  obtain ⟨hlo, hhi⟩ := sint8_range u
  have hmedium : u = 0x80#8 ↔ sint8 u = -128 := (sint8_inj (t := 0x80#8)).symm
  have hlarge : u = 0x81#8 ↔ sint8 u = -127 := (sint8_inj (t := 0x81#8)).symm
  rw [Ne, Ne, hmedium, hlarge]
  omega

/-- Settles O1: each byte by the laws of `sint8`, each value by `sint8_u8_of_byte_range`. -/
theorem signReinterpretationInvertsLowByte : Obligations.SignReinterpretationInvertsLowByte :=
  ⟨fun u => ⟨(sint8_range u).1, (sint8_range u).2, u8_sint8 u, sint8_neg_iff u, sint8_mem_small_iff u⟩,
    fun _ => sint8_u8_of_byte_range⟩

/-! ### The gathered payload is its bytes' concatenation read as signed (R117) -/

theorem gather16_eq_toInt_append (p0 p1 : Byte) : gather16 p0 p1 = (p1 ++ p0).toInt := by
  rw [gather16, alignHigh_one, BitVec.toInt_append]
  norm_num
  ring

theorem gather32_eq_toInt_append (p0 p1 p2 p3 : Byte) :
    gather32 p0 p1 p2 p3 = (p3 ++ p2 ++ p1 ++ p0).toInt := by
  rw [gather32, alignHigh_three, BitVec.toInt_append, BitVec.toInt_append, BitVec.toInt_append]
  norm_num
  ring

theorem gather16_range (p0 p1 : Byte) : mediumMin ≤ gather16 p0 p1 ∧ gather16 p0 p1 ≤ mediumMax := by
  rw [gather16_eq_toInt_append]
  exact ⟨BitVec.le_toInt _, Int.le_of_lt_add_one BitVec.toInt_lt⟩

theorem gather32_range (p0 p1 p2 p3 : Byte) :
    int32Min ≤ gather32 p0 p1 p2 p3 ∧ gather32 p0 p1 p2 p3 ≤ int32Max := by
  rw [gather32_eq_toInt_append]
  exact ⟨BitVec.le_toInt _, Int.le_of_lt_add_one BitVec.toInt_lt⟩

/-- No gathered medium value overflows (R117). -/
theorem toInt_toValue_gather16 (p0 p1 : Byte) : (toValue (gather16 p0 p1)).toInt = gather16 p0 p1 := by
  obtain ⟨hlo, hhi⟩ := gather16_range p0 p1
  exact toInt_toValue (le_trans (by decide) hlo) (le_trans hhi (by decide))

/-- No gathered large value overflows (R117). -/
theorem toInt_toValue_gather32 (p0 p1 p2 p3 : Byte) :
    (toValue (gather32 p0 p1 p2 p3)).toInt = gather32 p0 p1 p2 p3 :=
  toInt_toValue (gather32_range p0 p1 p2 p3).1 (gather32_range p0 p1 p2 p3).2

theorem toValue_gather16 (p0 p1 : Byte) : toValue (gather16 p0 p1) = (p1 ++ p0).signExtend 32 := by
  rw [gather16_eq_toInt_append]
  rfl

theorem toValue_gather32 (p0 p1 p2 p3 : Byte) : toValue (gather32 p0 p1 p2 p3) = p3 ++ p2 ++ p1 ++ p0 := by
  rw [gather32_eq_toInt_append]
  exact toValue_toInt _

/-- A medium value is gathered from its own payload, so the range of `gather16` is exact (R117). -/
theorem exists_gather16_eq {v : Int} (h1 : mediumMin ≤ v) (h2 : v ≤ mediumMax) : ∃ p0 p1, gather16 p0 p1 = v := by
  have hword : (toValue v).toInt = v := toInt_toValue (le_trans (by decide) h1) (le_trans h2 (by decide))
  exact ⟨_, _, (gather16_split (hword.symm ▸ h1) (hword.symm ▸ h2)).trans hword⟩

/-- Every 32-bit value is gathered from its own payload, so the range of `gather32` is exact (R117). -/
theorem exists_gather32_eq {v : Int} (h1 : int32Min ≤ v) (h2 : v ≤ int32Max) :
    ∃ p0 p1 p2 p3, gather32 p0 p1 p2 p3 = v :=
  ⟨_, _, _, _, (gather32_split (toValue v)).trans (toInt_toValue h1 h2)⟩

/-- The shift of stage 2 loses no significant bit (R117). -/
theorem alignHigh_three_range (h : Byte) : -2147483648 ≤ alignHigh 3 h ∧ alignHigh 3 h ≤ 127 * 16777216 := by
  obtain ⟨hlo, hhi⟩ := sint8_range h
  rw [alignHigh_three, ← sint8_eq_toInt]
  omega

/-- Settles O2: sums, ranges and words by the concatenated payload, the extremes by evaluation. -/
theorem gatheredPayloadRangesAndWords : Obligations.GatheredPayloadRangesAndWords := by
  refine ⟨fun p0 p1 => ?_, fun _ => exists_gather16_eq, fun p0 p1 p2 p3 => ?_, fun _ => exists_gather32_eq,
    by decide, by decide, by decide, by decide⟩
  · obtain ⟨hlo, hhi⟩ := gather16_range p0 p1
    have hsum : gather16 p0 p1 = p0.toNat + 256 * sint8 p1 := by rw [gather16, alignHigh_one, sint8_eq_toInt]
    exact ⟨hsum, hlo, hhi, toValue_gather16 p0 p1, toInt_toValue_gather16 p0 p1⟩
  · obtain ⟨hlo, hhi⟩ := gather32_range p0 p1 p2 p3
    obtain ⟨hshiftLo, hshiftHi⟩ := alignHigh_three_range p3
    have hsum : gather32 p0 p1 p2 p3 = p0.toNat + 256 * p1.toNat + 65536 * p2.toNat + 16777216 * sint8 p3 := by
      rw [gather32, alignHigh_three, sint8_eq_toInt]
      ring
    exact ⟨hsum, hlo, hhi, toValue_gather32 p0 p1 p2 p3, toInt_toValue_gather32 p0 p1 p2 p3, hshiftLo, hshiftHi⟩

/-! ### Combining by add and by OR (R118) -/

theorem toValue_add (x y : Int) : toValue (x + y) = toValue x + toValue y := BitVec.ofInt_add x y

/-- A shift of the word is a multiplication of the value by a power of two (R120). -/
theorem toValue_shiftLeft (x : Int) (n : Nat) : toValue x <<< n = toValue (x * ((2 ^ n : Nat) : Int)) := by
  have hpow : BitVec.twoPow 32 n = toValue ((2 ^ n : Nat) : Int) :=
    BitVec.eq_of_toNat_eq (by rw [toValue, BitVec.ofInt_natCast, BitVec.toNat_twoPow, BitVec.toNat_ofNat])
  rw [BitVec.shiftLeft_eq_mul_twoPow, hpow]
  exact (BitVec.ofInt_mul x _).symm

theorem setWidth_eq_toValue (p : Byte) : p.setWidth 32 = toValue p.toNat := by
  rw [toValue, BitVec.ofInt_natCast, BitVec.ofNat_toNat]

theorem signExtend_eq_toValue (h : Byte) : h.signExtend 32 = toValue (sint8 h) := by
  rw [sint8_eq_toInt]
  rfl

/-- Stages 1 and 2 as bits: extend the sign, then shift (R116). -/
theorem signExtend_shiftLeft (k : Nat) (h : Byte) : h.signExtend 32 <<< (8 * k) = toValue (alignHigh k h) := by
  rw [signExtend_eq_toValue, toValue_shiftLeft, Nat.pow_mul]
  rfl

/-- Stage 3 of a medium payload, built with add (R116). -/
theorem add_shifted_eq_gather16 (p0 p1 : Byte) :
    p1.signExtend 32 <<< 8 + p0.setWidth 32 = toValue (gather16 p0 p1) := by
  rw [signExtend_shiftLeft 1, setWidth_eq_toValue, ← toValue_add, gather16, add_comm]

/-- Stage 3 of a large payload, built with add (R116). -/
theorem add_shifted_eq_gather32 (p0 p1 p2 p3 : Byte) :
    p3.signExtend 32 <<< 24 + p2.setWidth 32 <<< 16 + p1.setWidth 32 <<< 8 + p0.setWidth 32 =
      toValue (gather32 p0 p1 p2 p3) := by
  rw [signExtend_shiftLeft 3, setWidth_eq_toValue, setWidth_eq_toValue, setWidth_eq_toValue, toValue_shiftLeft,
    toValue_shiftLeft, ← toValue_add, ← toValue_add, ← toValue_add, gather32]
  congr 1
  norm_num
  ring

/-- Two words of which one is zero from bit `n` on and the other is zero below it do not meet, so no carry arises. -/
theorem or_eq_add_of_split_at (n : Nat) {a b : Value} (ha : ∀ i < n, a.getLsbD i = false)
    (hb : ∀ i, n ≤ i → b.getLsbD i = false) : a ||| b = a + b := by
  have hdisjoint : a &&& b = 0#32 := by
    apply BitVec.eq_of_getLsbD_eq
    intro i _
    rcases lt_or_ge i n with h | h
    · simp [ha i h]
    · simp [hb i h]
  exact (BitVec.add_eq_or_of_and_eq_zero a b hdisjoint).symm

/-- A word that is zero in the bits `n` to `n + 7` and below combines with a byte shifted there by OR as by add. -/
theorem or_shifted_byte_eq_add (n : Nat) {a : Value} (p : Byte) (ha : ∀ i < n + 8, a.getLsbD i = false) :
    a ||| p.setWidth 32 <<< n = a + p.setWidth 32 <<< n := by
  refine or_eq_add_of_split_at (n + 8) ha fun i hi => ?_
  simp [BitVec.getLsbD_of_ge p (i - n) (by omega)]

theorem getLsbD_shiftLeft_of_lt (x : Value) {n i : Nat} (h : i < n) : (x <<< n).getLsbD i = false := by
  simp [h]

/-- Settles O3: the OR becomes a sum one payload byte at a time, the lowest first, and the sum is the gathered value's
word. -/
theorem combineByAddOrByOr : Obligations.CombineByAddOrByOr := by
  refine ⟨fun p0 p1 => ⟨?_, add_shifted_eq_gather16 p0 p1⟩,
    fun p0 p1 p2 p3 => ⟨?_, add_shifted_eq_gather32 p0 p1 p2 p3⟩⟩
  · rw [← BitVec.shiftLeft_zero (p0.setWidth 32), or_shifted_byte_eq_add 0]
    exact fun i hi => getLsbD_shiftLeft_of_lt _ hi
  · rw [← BitVec.shiftLeft_zero (p0.setWidth 32), or_shifted_byte_eq_add 0, or_shifted_byte_eq_add 8,
      or_shifted_byte_eq_add 16]
    all_goals
      intro i hi
      simp (disch := omega) only [BitVec.getLsbD_or, getLsbD_shiftLeft_of_lt, Bool.or_false]

/-! ### Splitting a gathered payload (R119) -/

/-- `u8` drops everything above the low byte (R111). -/
theorem u8_toNat_add_mul_256 (p : Byte) (x : Int) : u8 (p.toNat + x * 256) = p := by
  have hp := p.isLt
  apply BitVec.eq_of_toNat_eq
  rw [u8, BitVec.toNat_ofNat]
  omega

/-- `byte_k` of a word whose value is known is the low byte of that value divided by `256 ^ k` (R114). -/
theorem byteK_eq_u8 {w : Value} {x : Int} (h : w.toInt = x) (k : Nat) : byteK k w = u8 (x / ((256 ^ k : Nat) : Int)) := by
  rw [byteK, bits, h, Nat.pow_mul, Nat.add_sub_cancel_left]
  rfl

/-- A medium payload comes back from its gathered value (R119). -/
theorem split16_gather16 (p0 p1 : Byte) : split16 (toValue (gather16 p0 p1)) = [p0, p1] := by
  have h0 : u8 (gather16 p0 p1) = p0 := u8_toNat_add_mul_256 p0 (sint8 p1)
  have h1 : gather16 p0 p1 / 256 = sint8 p1 := by
    have := p0.isLt
    rw [gather16, alignHigh_one, ← sint8_eq_toInt]
    omega
  simp [split16, byteK_eq_u8 (toInt_toValue_gather16 p0 p1), h0, h1]

/-- A large payload comes back from its gathered value (R119). -/
theorem split32_gather32 (p0 p1 p2 p3 : Byte) : split32 (toValue (gather32 p0 p1 p2 p3)) = [p0, p1, p2, p3] := by
  have hp0 := p0.isLt
  have hp1 := p1.isLt
  have hp2 := p2.isLt
  have hsum : gather32 p0 p1 p2 p3 = p0.toNat + (p1.toNat + (p2.toNat + sint8 p3 * 256) * 256) * 256 := by
    rw [gather32, alignHigh_three, ← sint8_eq_toInt]
    ring
  have h1 : gather32 p0 p1 p2 p3 / 256 = p1.toNat + (p2.toNat + sint8 p3 * 256) * 256 := by omega
  have h2 : gather32 p0 p1 p2 p3 / 65536 = p2.toNat + sint8 p3 * 256 := by omega
  have h3 : gather32 p0 p1 p2 p3 / 16777216 = sint8 p3 := by omega
  have h0 : u8 (gather32 p0 p1 p2 p3) = p0 := by rw [hsum, u8_toNat_add_mul_256]
  simp [split32, byteK_eq_u8 (toInt_toValue_gather32 p0 p1 p2 p3), h0, h1, h2, h3, u8_toNat_add_mul_256]

/-- Settles O4: `gather16_split` and `gather32_split` one way, `split16_gather16` and `split32_gather32` the other. -/
theorem marshallerSplitGatherInverse : Obligations.MarshallerSplitGatherInverse := by
  refine ⟨fun v p0 p1 h1 h2 hsplit => ?_, fun v p0 p1 p2 p3 hsplit => ?_, fun p0 p1 => ?_, split32_gather32⟩
  · obtain ⟨rfl, rfl⟩ : byteK 0 v = p0 ∧ byteK 1 v = p1 := by simpa [split16] using hsplit
    exact gather16_split h1 h2
  · obtain ⟨rfl, rfl, rfl, rfl⟩ : byteK 0 v = p0 ∧ byteK 1 v = p1 ∧ byteK 2 v = p2 ∧ byteK 3 v = p3 := by
      simpa [split32] using hsplit
    exact gather32_split v
  · obtain ⟨hlo, hhi⟩ := gather16_range p0 p1
    exact ⟨hlo, hhi, split16_gather16 p0 p1⟩

/-! ### The range tests on bits (R121) -/

/-- The upper field of a word, read as signed, is the word's value divided by the weight of the field's lowest bit. -/
theorem toInt_extractLsb'_upper {m n : Nat} (hm : 0 < m) (v : BitVec (m + n)) :
    (v.extractLsb' n m).toInt = v.toInt / 2 ^ n := by
  have hsplit : v.extractLsb' n m ++ v.extractLsb' 0 n = v := by
    rw [BitVec.extractLsb'_append_extractLsb'_eq_extractLsb' (Nat.zero_add n).symm, BitVec.extractLsb'_eq_self]
  have hlow : ((v.extractLsb' 0 n).toNat : Int) < 2 ^ n := by exact_mod_cast (v.extractLsb' 0 n).isLt
  have hsum : v.toInt = 2 ^ n * (v.extractLsb' n m).toInt + (v.extractLsb' 0 n).toNat := by
    conv_lhs => rw [← hsplit, BitVec.toInt_append, if_neg (by simpa using hm.ne')]
  rw [hsum, Int.mul_add_ediv_left _ _ (by positivity), Int.ediv_eq_zero_of_lt (by positivity) hlow, add_zero]

/-- The bits of a word from bit `n` up are equal exactly when the word's value fits in `n` bits and a sign. -/
theorem upper_bits_equal_iff {m n : Nat} (hm : 0 < m) (v : BitVec (m + n)) :
    (v.extractLsb' n m = 0#m ∨ v.extractLsb' n m = BitVec.allOnes m) ↔ (-2 ^ n ≤ v.toInt ∧ v.toInt < 2 ^ n) := by
  have hpow : (0 : Int) < 2 ^ n := by positivity
  rw [← BitVec.toInt_inj, ← BitVec.toInt_inj, toInt_extractLsb'_upper hm, BitVec.toInt_zero, BitVec.toInt_allOnes,
    if_pos hm, Int.ediv_eq_iff_of_pos hpow, Int.ediv_eq_iff_of_pos hpow]
  omega

theorem byte_range_iff_upper_bits (v : Value) :
    (-128 ≤ v.toInt ∧ v.toInt ≤ 127) ↔
      (v.extractLsb' 7 25 = 0#25 ∨ v.extractLsb' 7 25 = BitVec.allOnes 25) :=
  (and_congr_right' Int.lt_add_one_iff.symm).trans (upper_bits_equal_iff (m := 25) (n := 7) (by decide) v).symm

theorem fitsMedium_iff_upper_bits (v : Value) :
    fitsMedium v = true ↔ (v.extractLsb' 15 17 = 0#17 ∨ v.extractLsb' 15 17 = BitVec.allOnes 17) :=
  (fitsMedium_iff v).trans <|
    (and_congr_right' Int.lt_add_one_iff.symm).trans (upper_bits_equal_iff (m := 17) (n := 15) (by decide) v).symm

/-- A value is small exactly when one byte holds it and that byte is no tag (R92, R121). -/
theorem fitsSmall_iff_byte_range (v : Value) :
    fitsSmall v = true ↔ (-128 ≤ v.toInt ∧ v.toInt ≤ 127) ∧ v.setWidth 8 ≠ 0x80#8 ∧ v.setWidth 8 ≠ 0x81#8 := by
  rw [fitsSmall_iff, ← sint8_mem_small_iff, ← u8_toInt]
  constructor
  · intro ⟨hlo, hhi⟩
    have hrange : -128 ≤ v.toInt ∧ v.toInt ≤ 127 := ⟨le_trans (by decide) hlo, hhi⟩
    rw [sint8_u8_of_byte_range hrange.1 hrange.2]
    exact ⟨hrange, hlo, hhi⟩
  · intro ⟨⟨hlo, hhi⟩, hsmall⟩
    rwa [sint8_u8_of_byte_range hlo hhi] at hsmall

/-- Settles O5: the tests on every word by `upper_bits_equal_iff`, the boundary cases by evaluation. -/
theorem rangeTestsOnBits : Obligations.RangeTestsOnBits :=
  ⟨fun v => ⟨byte_range_iff_upper_bits v,
      (fitsSmall_iff_byte_range v).trans (and_congr_left' (byte_range_iff_upper_bits v)),
      fitsMedium_iff_upper_bits v⟩,
    by decide, by decide, by decide⟩

end Sys2Proof.Machine
end

section
/-! PROOFS. The encoder unit (41_encoder.md): what a run of the encoder over its values leaves, the record of a value by
its range, what each encoder operation stores, and the ENCODE transaction. With them the count of a running unit's steps
and the finishing steps, which the rules state for both units. -/

namespace Sys2Proof.Machine

/-! ### Value sequences (R137) -/

/-- A write in two parts. -/
theorem memWrite_append {α : Type} (m : Memory α) (a : Nat) (xs ys : List α) :
    memWrite m a (xs ++ ys) = memWrite (memWrite m a xs) (a + xs.length) ys := by
  induction xs generalizing m a with
  | nil => rfl
  | cons x xs ih => rw [List.cons_append, memWrite_cons, ih, memWrite_cons, List.length_cons, Nat.add_right_comm,
      Nat.add_assoc]

/-- A slice by its first element and the others. -/
theorem memSlice_succ_eq_some_cons {α : Type} {m : Memory α} {a n : Nat} {x : α} {xs : List α} :
    memSlice m a (n + 1) = some (x :: xs) ↔ memGet m a = some x ∧ memSlice m (a + 1) n = some xs := by
  rw [memSlice]
  cases memGet m a <;> cases memSlice m (a + 1) n <;> simp

/-- An encoding has 1 to 5 bytes for each value (R191). -/
theorem encodeSeq_length_bounds (vs : List Value) :
    vs.length ≤ (encodeSeq vs).length ∧ (encodeSeq vs).length ≤ 5 * vs.length := by
  induction vs with
  | nil => exact ⟨le_rfl, le_rfl⟩
  | cons v vs ih =>
    have hrec := enc1_length_bounds v
    simp only [encodeSeq_cons, List.length_append, List.length_cons]
    omega

/-! ### Runs of a unit and of the machine -/

/-- A run goes on from where its first part ends. -/
theorem runUnit_add {u : UnitId} {j : Nat} {s m : State} (h : runUnit u j s = .next m) (k : Nat) :
    runUnit u (j + k) s = runUnit u k m := by
  induction j generalizing s with
  | zero => cases h; rw [Nat.zero_add]
  | succ j ih =>
    obtain ⟨s', hstep, hrest⟩ := runUnit_succ_eq_next.mp h
    rw [Nat.add_right_comm, runUnit, hstep]
    exact ih hrest

theorem runUnit_one {u : UnitId} {s t : State} (h : unitStep u s = .next t) : runUnit u 1 s = .next t :=
  runUnit_succ_eq_next.mpr ⟨t, h, rfl⟩

theorem runSteps_succ {s m : State} (h : step s = .next m) (k : Nat) : runSteps (k + 1) s = runSteps k m := by
  rw [runSteps, h]

/-- No unit's step looks at the turns (R21). -/
theorem unitStep_withTurns {u : UnitId} {s t : State} (h : unitStep u s = .next t) (ts : List Turn) :
    unitStep u (s.withTurns ts) = .next (t.withTurns ts) := by
  cases u with
  | enc =>
    rw [unitStep_enc_of_same_unit (s := s) (s' := s.withTurns ts) rfl rfl h, unitStep_enc_frame h]
    rfl
  | dec =>
    rw [unitStep_dec_of_same_unit (s := s) (s' := s.withTurns ts) rfl rfl h, unitStep_dec_frame h]
    rfl

/-- Given `k` turns of a unit, the machine takes the unit's run of `k` steps, and then the other turns. -/
theorem runSteps_unit_turns {u : UnitId} {k : Nat} {s t : State} (h : runUnit u k s = .next t) (ts : List Turn)
    (j : Nat) :
    runSteps (k + j) (s.withTurns (List.replicate k (.unit u) ++ ts)) = runSteps j (t.withTurns ts) := by
  induction k generalizing s with
  | zero => cases h; rw [Nat.zero_add]; rfl
  | succ k ih =>
    obtain ⟨m, hstep, hrest⟩ := runUnit_succ_eq_next.mp h
    have hturn : step (s.withTurns (List.replicate (k + 1) (.unit u) ++ ts)) =
        .next (m.withTurns (List.replicate k (.unit u) ++ ts)) :=
      (step_of_unit_turn rfl).trans (unitStep_withTurns hstep _)
    rw [Nat.add_right_comm, runSteps_succ hturn, ih hrest]

/-! ### A unit's step where it completes -/

/-- In RUN with the input used up, the decoder fetches the finishing step (R158). -/
theorem fetchDec_of_end {s : State} (hrun : s.dec.ph = .run) (hend : s.dec.cur = s.dec.len) : fetchDec s = .finish := by
  simp [fetchDec, hrun, hend]

/-- The encoder's finishing step (R136). -/
theorem unitStep_enc_of_end {s : State} (hrun : s.enc.ph = .run) (hend : s.enc.idx = s.enc.n) :
    unitStep .enc s = .next (s.withEnc s.enc.finish) :=
  unitStep_of_finish (fetchEnc_of_end hrun hend)

/-- The decoder's finishing step (R158, R163). -/
theorem unitStep_dec_of_end {s : State} (hrun : s.dec.ph = .run) (hend : s.dec.cur = s.dec.len) :
    unitStep .dec s = .next (s.withDec s.dec.finish) :=
  unitStep_of_finish (fetchDec_of_end hrun hend)

/-- In RUN with a readable value left, the encoder's step is the operation selected for it (R131, R136). -/
theorem unitStep_enc_of_value {s : State} {v : Value} (hrun : s.enc.ph = .run) (hlt : s.enc.idx < s.enc.n)
    (hv : memGet s.enc.iv s.enc.idx = some v) : unitStep .enc s = exec (selectRecord v) s :=
  unitStep_of_record (fetchEnc_of_value hrun hlt hv)

/-- An encoder operation with a value left and room completes (R136). -/
theorem exec_enc_emits {s : State} {i : Instr} (hi : isDec i = false) (hrun : s.enc.ph = .run)
    (hlt : s.enc.idx < s.enc.n) (hroom : within (obCapacity s.par) (s.enc.olen + (encode i).length) = true) :
    exec i s = .next (s.withEnc (s.enc.emit (encode i))) := by
  rw [exec_enc hi]
  exact encRecord_eq_next.mpr ⟨hrun, hlt, hroom, rfl⟩

/-- Settles O22. -/
theorem finishingStepSetsDone : Obligations.FinishingStepSetsDone := fun _ _ =>
  ⟨fun hts hrun hend => (step_of_unit_turn hts).trans (unitStep_enc_of_end hrun hend),
    fun hts hrun hend => (step_of_unit_turn hts).trans (unitStep_dec_of_end hrun hend)⟩

/-- Settles O20. -/
theorem stepRunsSelectedRecord : Obligations.StepRunsSelectedRecord := fun _ _ _ hts hrun hlt hv =>
  (step_of_unit_turn hts).trans (unitStep_enc_of_value hrun hlt hv)

/-! ### A run of the encoder over several values (R136, R137) -/

/-- The encoder after a value step for each value of `vs`. -/
def Enc.emitValues (vs : List Value) (e : Enc) : Enc :=
  { e with
    ob := memWrite e.ob e.olen (encodeSeq vs), olen := e.olen + (encodeSeq vs).length, idx := e.idx + vs.length }

@[simp] theorem Enc.emitValues_ph (vs : List Value) (e : Enc) : (e.emitValues vs).ph = e.ph := rfl
@[simp] theorem Enc.emitValues_n (vs : List Value) (e : Enc) : (e.emitValues vs).n = e.n := rfl
@[simp] theorem Enc.emitValues_iv (vs : List Value) (e : Enc) : (e.emitValues vs).iv = e.iv := rfl
@[simp] theorem Enc.emitValues_idx (vs : List Value) (e : Enc) : (e.emitValues vs).idx = e.idx + vs.length := rfl
@[simp] theorem Enc.emitValues_ob (vs : List Value) (e : Enc) :
    (e.emitValues vs).ob = memWrite e.ob e.olen (encodeSeq vs) := rfl
@[simp] theorem Enc.emitValues_olen (vs : List Value) (e : Enc) :
    (e.emitValues vs).olen = e.olen + (encodeSeq vs).length := rfl

@[simp] theorem Enc.emitValues_nil (e : Enc) : e.emitValues [] = e := rfl

/-- One value step, then the others. -/
theorem Enc.emitValues_cons (v : Value) (vs : List Value) (e : Enc) :
    e.emitValues (v :: vs) = (e.emit (encode (selectRecord v))).emitValues vs := by
  simp only [Enc.emitValues, Enc.emit, encode_selectRecord, encodeSeq_cons, memWrite_append, List.length_append,
    List.length_cons, Nat.add_assoc, Nat.add_comm 1]

/-- A running encoder whose next values are `vs`, with room for their records, takes one step for each and appends
`encode(vs)`. -/
theorem runUnit_enc_values {s : State} {vs : List Value} (hrun : s.enc.ph = .run)
    (hfit : s.enc.idx + vs.length ≤ s.enc.n) (hvs : memSlice s.enc.iv s.enc.idx vs.length = some vs)
    (hroom : within (obCapacity s.par) (s.enc.olen + (encodeSeq vs).length) = true) :
    runUnit .enc vs.length s = .next (s.withEnc (s.enc.emitValues vs)) := by
  induction vs generalizing s with
  | nil => rfl
  | cons v vs ih =>
    rw [List.length_cons] at hfit
    rw [encodeSeq_cons, List.length_append, ← encode_selectRecord, ← Nat.add_assoc] at hroom
    obtain ⟨hv, htail⟩ := memSlice_succ_eq_some_cons.mp hvs
    have hstep : unitStep .enc s = .next (s.withEnc (s.enc.emit (encode (selectRecord v)))) :=
      (unitStep_enc_of_value hrun (by omega) hv).trans
        (exec_enc_emits (isDec_selectRecord v) hrun (by omega) (within_mono hroom (by omega)))
    refine runUnit_succ_eq_next.mpr ⟨_, hstep, ?_⟩
    rw [Enc.emitValues_cons]
    exact ih hrun (by simp only [State.withEnc_enc, Enc.emit_idx, Enc.emit_n]; omega) htail hroom

/-- With the last value encoded, one step more finishes (R136). -/
theorem runUnit_enc_all {s : State} {vs : List Value} (hrun : s.enc.ph = .run)
    (hall : s.enc.idx + vs.length = s.enc.n) (hvs : memSlice s.enc.iv s.enc.idx vs.length = some vs)
    (hroom : within (obCapacity s.par) (s.enc.olen + (encodeSeq vs).length) = true) :
    runUnit .enc (vs.length + 1) s = .next (s.withEnc (s.enc.emitValues vs).finish) := by
  rw [runUnit_add (runUnit_enc_values hrun hall.le hvs hroom)]
  exact runUnit_one (unitStep_enc_of_end hrun hall)

/-! ### How long a running unit runs (R237) -/

/-- Under the invariants the next `k` values of the encoder's input can be read and their records have room (R27). -/
theorem exists_next_values {s : State} (h : EncInv s.par s.enc) {k : Nat} (hk : k ≤ s.enc.n - s.enc.idx) :
    ∃ vs, vs.length = k ∧ memSlice s.enc.iv s.enc.idx vs.length = some vs ∧
      within (obCapacity s.par) (s.enc.olen + (encodeSeq vs).length) = true := by
  obtain ⟨hle, hcap, -, hhi, -, vs, hvs, -⟩ := h
  have hnext := memSlice_sub hvs (i := s.enc.idx) (j := k) (by omega)
  have hlen := memSlice_length hnext
  have hsize := (encodeSeq_length_bounds ((vs.drop s.enc.idx).take k)).2
  rw [Nat.zero_add] at hnext
  exact ⟨_, hlen, by rwa [hlen], within_obCapacity hcap (by omega)⟩

/-- A running encoder is in RUN until one step for each value left has been taken. -/
theorem runUnit_enc_running {s : State} (h : EncInv s.par s.enc) (hrun : s.enc.ph = .run) {k : Nat}
    (hk : k ≤ s.enc.n - s.enc.idx) : ∃ t, runUnit .enc k s = .next t ∧ t.enc.ph = .run := by
  have ⟨hle, _⟩ := h
  obtain ⟨vs, rfl, hvs, hroom⟩ := exists_next_values h hk
  exact ⟨_, runUnit_enc_values hrun (by omega) hvs hroom, hrun⟩

/-- A running encoder is DONE one step after its last value. -/
theorem runUnit_enc_done {s : State} (h : EncInv s.par s.enc) (hrun : s.enc.ph = .run) :
    ∃ t, runUnit .enc (s.enc.n - s.enc.idx + 1) s = .next t ∧ t.enc.ph = .done := by
  have ⟨hle, _⟩ := h
  obtain ⟨vs, hlen, hvs, hroom⟩ := exists_next_values h le_rfl
  rw [← hlen]
  exact ⟨_, runUnit_enc_all hrun (by omega) hvs hroom, rfl⟩

/-- A step of the decoder ends the run, or moves the cursor on within the input. -/
theorem unitStep_dec_ends_or_advances {s t : State} (h : unitStep .dec s = .next t) :
    t.dec.ph = .done ∨
    (t.dec.ph = .run ∧ t.dec.len = s.dec.len ∧ s.dec.cur < t.dec.cur ∧ t.dec.cur ≤ t.dec.len) := by
  obtain ⟨hrun, ⟨-, rfl⟩ | ⟨b, -, -, -, rfl⟩ | ⟨i, hi, -, hfit, -, -, rfl⟩⟩ := unitStep_dec_next h
  · exact .inl rfl
  · exact .inl rfl
  · have hlen := encode_length_of_isDec hi
    refine .inr ⟨hrun, rfl, ?_, hfit⟩
    simp only [State.withDec_dec, Dec.append_cur]
    omega

/-- A running decoder is DONE after at most one step for each byte left and one more: each step that does not end the run
leaves fewer bytes. -/
theorem runUnit_dec_done {s : State} (hinv : s.Inv) (hrun : s.dec.ph = .run) :
    ∃ k t, 1 ≤ k ∧ k ≤ s.dec.len - s.dec.cur + 1 ∧ runUnit .dec k s = .next t ∧ t.dec.ph = .done ∧
      ∀ j, j < k → ∃ t', runUnit .dec j s = .next t' ∧ t'.dec.ph = .run := by
  obtain ⟨m, hstep⟩ := runningUnitNeverStuck s .dec hinv hrun
  rcases unitStep_dec_ends_or_advances hstep with hdone | ⟨hrun', hlen, hadv, hle⟩
  · exact ⟨1, m, le_rfl, by omega, runUnit_one hstep, hdone, fun j hj => ⟨s, by simp [Nat.lt_one_iff.mp hj], hrun⟩⟩
  · obtain ⟨k, t, -, hk, hrest, hdone, hbefore⟩ := runUnit_dec_done (unitStep_keeps_inv hinv hstep) hrun'
    refine ⟨k + 1, t, by omega, by omega, runUnit_succ_eq_next.mpr ⟨m, hstep, hrest⟩, hdone, fun j hj => ?_⟩
    cases j with
    | zero => exact ⟨s, rfl, hrun⟩
    | succ j =>
      obtain ⟨t', ht', hrunning⟩ := hbefore j (by omega)
      exact ⟨t', runUnit_succ_eq_next.mpr ⟨m, hstep, ht'⟩, hrunning⟩
termination_by s.dec.len - s.dec.cur

/-- Settles O35: the encoder by the values left, the decoder by the bytes left. -/
theorem runningUnitFinishesInTime : Obligations.RunningUnitFinishesInTime := by
  intro s hinv
  have ⟨_, henc, _⟩ := hinv
  exact ⟨fun hrun => ⟨runUnit_enc_done henc hrun, fun _ hk => runUnit_enc_running henc hrun hk⟩,
    runUnit_dec_done hinv⟩

/-! ### The ENCODE transaction (R138) -/

/-- The encoder after an ENCODE of `vs` that began with the encoder `e`. -/
def Enc.encoded (vs : List Value) (e : Enc) : Enc := ((e.start vs).emitValues vs).finish

theorem Enc.encoded_olen (vs : List Value) (e : Enc) : (e.encoded vs).olen = (encodeSeq vs).length :=
  Nat.zero_add _

theorem Enc.encoded_input (vs : List Value) (e : Enc) : memSlice (e.encoded vs).iv 0 vs.length = some vs :=
  memSlice_memWrite_self e.iv 0 vs

theorem Enc.encoded_output (vs : List Value) (e : Enc) :
    memSlice (e.encoded vs).ob 0 (e.encoded vs).olen = some (encodeSeq vs) := by
  rw [Enc.encoded_olen]
  exact memSlice_memWrite_self e.ob 0 (encodeSeq vs)

/-- From a start within the capacity, one step for each value and one more encode the input (R138). -/
theorem runUnit_enc_started (s : State) {vs : List Value} (hcap : within s.par.nmax vs.length = true) :
    runUnit .enc (vs.length + 1) (s.withEnc (s.enc.start vs)) = .next (s.withEnc (s.enc.encoded vs)) := by
  refine runUnit_enc_all rfl (Nat.zero_add _) (memSlice_memWrite_self s.enc.iv 0 vs) (within_obCapacity hcap ?_)
  rw [State.withEnc_enc, Enc.start_olen, Nat.zero_add]
  exact (encodeSeq_length_bounds vs).2

/-- The turn of an allowed `ENC.start` (R22). -/
theorem step_of_encStart_turn {s : State} {vs : List Value} (ts : List Turn) (hph : s.enc.ph ≠ .run)
    (hcap : within s.par.nmax vs.length = true) :
    step (s.withTurns (.host (.encStart vs) :: ts)) = .next ((s.withEnc (s.enc.start vs)).withTurns ts) :=
  (step_of_host_turn rfl).trans (hostMove_encStart_allowed (s := s.withTurns ts) hph hcap)

/-- The turn of an allowed `ENC.read` (R22). -/
theorem step_of_encRead_turn {s : State} {bs : List Byte} (ts : List Turn) (hph : s.enc.ph = .done)
    (hbs : memSlice s.enc.ob 0 s.enc.olen = some bs) :
    step (s.withTurns (.host .encRead :: ts)) = .next ((s.withTurns ts).receive (.encoded bs)) :=
  (step_of_host_turn rfl).trans (hostMove_encRead_done (s := s.withTurns ts) hph hbs)

/-- Settles O41: the start's turn, the unit's turns as its run, and the read's turn. -/
theorem encodeTransaction : Obligations.EncodeTransaction := by
  intro s vs hph hcap
  have hread := step_of_encRead_turn (s := s.withEnc (s.enc.encoded vs)) [] rfl (Enc.encoded_output vs s.enc)
  refine ⟨((s.withEnc (s.enc.encoded vs)).withTurns []).receive (.encoded (encodeSeq vs)), ?_, rfl,
    Enc.encoded_olen vs s.enc, Enc.encoded_output vs s.enc, Enc.encoded_input vs s.enc, rfl, rfl⟩
  exact (runSteps_succ (step_of_encStart_turn _ hph hcap) (vs.length + 1 + 1)).trans
    ((runSteps_unit_turns (runUnit_enc_started s hcap) [.host .encRead] 1).trans (runSteps_succ hread 0))

/-! ### The record of a value by its range (R132 to R135) -/

/-- The bytes of `ENC.SMALL` as bits of the word (R111, R132). -/
theorem encode_encSmall (v : Value) : encode (.encSmall v) = [v.extractLsb' 0 8] := by
  rw [encode, u8_toInt, BitVec.setWidth_eq_extractLsb' (by decide)]

/-- The bytes of `ENC.MEDIUM` as bits of the word (R114, R133). -/
theorem encode_encMedium (v : Value) : encode (.encMedium v) = [0x80#8, v.extractLsb' 0 8, v.extractLsb' 8 8] := by
  rw [encode, split16, byteK_eq_extract v (by decide), byteK_eq_extract v (by decide), tagMedium]

/-- The bytes of `ENC.LARGE` as bits of the word (R114, R134). -/
theorem encode_encLarge (v : Value) : encode (.encLarge v) =
    [0x81#8, v.extractLsb' 0 8, v.extractLsb' 8 8, v.extractLsb' 16 8, v.extractLsb' 24 8] := by
  rw [encode, split32, byteK_eq_extract v (by decide), byteK_eq_extract v (by decide), byteK_eq_extract v (by decide),
    byteK_eq_extract v (by decide), tagLarge]

/-- The tags are never produced as a small record (R132). -/
theorem low_byte_ne_tags {v : Value} (h1 : smallMin ≤ v.toInt) (h2 : v.toInt ≤ smallMax) :
    v.extractLsb' 0 8 ≠ 0x80#8 ∧ v.extractLsb' 0 8 ≠ 0x81#8 := by
  rw [← BitVec.setWidth_eq_extractLsb' (by decide)]
  exact ((fitsSmall_iff_byte_range v).mp ((fitsSmall_iff v).mpr ⟨h1, h2⟩)).2

/-- The three domains of R90 in order, with the operation selected in each. -/
theorem selectRecord_cases (v : Value) :
    (selectRecord v = .encSmall v ∧ -126 ≤ v.toInt ∧ v.toInt ≤ 127) ∨
    (selectRecord v = .encMedium v ∧ ((-32768 ≤ v.toInt ∧ v.toInt ≤ -127) ∨ (128 ≤ v.toInt ∧ v.toInt ≤ 32767))) ∨
    (selectRecord v = .encLarge v ∧ (v.toInt ≤ -32769 ∨ 32768 ≤ v.toInt)) := by
  obtain ⟨hsmall, hmedium, hlarge, -⟩ := encoderFormatChoice v
  rw [and_iff_right_of_imp hsmall.mpr, and_iff_right_of_imp hmedium.mpr, and_iff_right_of_imp hlarge.mpr]
  omega

/-- Settles O7: the selected operation's bytes, domain by domain. -/
theorem emittedRecordFirstByteAndLength : Obligations.EmittedRecordFirstByteAndLength := by
  intro v
  refine ⟨(encode_selectRecord v).symm, ?_⟩
  rcases selectRecord_cases v with ⟨hsel, hrange⟩ | ⟨hsel, hrange⟩ | ⟨hsel, hrange⟩
  · obtain ⟨hm, hl⟩ := low_byte_ne_tags hrange.1 hrange.2
    have hlen : recLen (v.extractLsb' 0 8) = 1 := by simp [recLen, tagLarge, tagMedium, hm, hl]
    rw [hsel, encode_encSmall, if_pos hrange]
    exact ⟨rfl, _, _, rfl, hlen.symm, iff_of_false hm (by omega), iff_of_false hl (by omega)⟩
  · rw [hsel, encode_encMedium, if_neg (by omega), if_pos (by omega)]
    exact ⟨rfl, _, _, rfl, rfl, iff_of_true rfl hrange, iff_of_false (by decide) (by omega)⟩
  · rw [hsel, encode_encLarge, if_neg (by omega), if_neg (by omega)]
    exact ⟨rfl, _, _, rfl, rfl, iff_of_false (by decide) (by omega), iff_of_true rfl hrange⟩

/-! ### What an encoder operation stores (R132 to R134) -/

/-- An encoder operation with a value left and room stores its record from `OLEN` on, and changes nothing else but the two
counts. -/
theorem exec_enc_effect {s : State} {i : Instr} {out : List Byte} (hi : isDec i = false) (hout : encode i = out)
    (hrun : s.enc.ph = .run) (hlt : s.enc.idx < s.enc.n)
    (hroom : within (obCapacity s.par) (s.enc.olen + out.length) = true) :
    ∃ t : State, exec i s = .next t ∧ memSlice t.enc.ob s.enc.olen out.length = some out ∧
      (∀ a, a < s.enc.olen ∨ s.enc.olen + out.length ≤ a → memGet t.enc.ob a = memGet s.enc.ob a) ∧
      t = { s with enc := { s.enc with ob := t.enc.ob, olen := s.enc.olen + out.length, idx := s.enc.idx + 1 } } := by
  subst hout
  exact ⟨_, exec_enc_emits hi hrun hlt hroom, memSlice_memWrite_self s.enc.ob s.enc.olen (encode i),
    fun _ ha => memGet_memWrite_outside s.enc.ob (encode i) ha, rfl⟩

/-- The encoder fetches an operation for a value that selects it (R136). -/
theorem fetch_enc_of_selected {s : State} {v : Value} {i : Instr} (hsel : selectRecord v = i) (hrun : s.enc.ph = .run)
    (hlt : s.enc.idx < s.enc.n) (hv : memGet s.enc.iv s.enc.idx = some v) : fetch .enc s = .record i :=
  hsel ▸ fetchEnc_of_value hrun hlt hv

/-- Settles O15. -/
theorem encSmallEmitsLowByte : Obligations.EncSmallEmitsLowByte := by
  intro s v h1 h2 hrun hlt hroom
  obtain ⟨hsmall, -⟩ := encoderFormatChoice v
  obtain ⟨hm, hl⟩ := low_byte_ne_tags h1 h2
  obtain ⟨t, hexec, hslice, hframe, ht⟩ := exec_enc_effect rfl (encode_encSmall v) hrun hlt hroom
  refine ⟨fetch_enc_of_selected (hsmall.mpr ⟨h1, h2⟩) hrun hlt, t, hexec, hslice, hm, hl, fun a ha => ?_, ht⟩
  exact hframe a (by rw [List.length_singleton]; omega)

/-- Settles O16. -/
theorem encMediumEmitsTagAndTwoBytes : Obligations.EncMediumEmitsTagAndTwoBytes := by
  intro s v hrange hrun hlt hroom
  obtain ⟨-, hmedium, -⟩ := encoderFormatChoice v
  exact ⟨fetch_enc_of_selected (hmedium.mpr hrange) hrun hlt, exec_enc_effect rfl (encode_encMedium v) hrun hlt hroom⟩

/-- Settles O17. -/
theorem encLargeEmitsTagAndFourBytes : Obligations.EncLargeEmitsTagAndFourBytes := by
  intro s v hrange hrun hlt hroom
  obtain ⟨-, -, hlarge, -⟩ := encoderFormatChoice v
  exact ⟨fetch_enc_of_selected (hlarge.mpr hrange) hrun hlt, exec_enc_effect rfl (encode_encLarge v) hrun hlt hroom⟩

end Sys2Proof.Machine
end

section
/-! PROOFS. The decoder unit (42_decoder.md): what decodes to no record, which operation the framer fetches, what each
decoder operation appends, and the DECODE transaction. -/

namespace Sys2Proof.Machine

/-! ### What decodes to no record (R152, R158) -/

@[simp] theorem decode_nil : decode [] = .endOfBuffer := rfl

/-- A tag with too few bytes after it (R152). -/
theorem decode_short {t : Byte} {payload : List Byte} (h : payload.length + 1 < recLen t) :
    decode (t :: payload) = .truncated (recLen t) (payload.length + 1) := by
  rcases recLen_cases t with ⟨rfl, hlen⟩ | ⟨rfl, hlen⟩ | ⟨-, -, hlen⟩
  · match payload, h with
    | [], _ => rfl
    | [_], _ => rfl
  · match payload, h with
    | [], _ => rfl
    | [_], _ => rfl
    | [_, _], _ => rfl
    | [_, _, _], _ => rfl
  · omega

/-- A first byte with enough bytes after it starts a record (R93). -/
theorem exists_decode_record {t : Byte} {payload : List Byte} (h : recLen t ≤ payload.length + 1) :
    ∃ i rest, decode (t :: payload) = .record i rest := by
  have hlen : (payload.take (recLen t - 1)).length = recLen t - 1 := by rw [List.length_take]; omega
  obtain ⟨i, hi⟩ := decode_whole_append hlen (payload.drop (recLen t - 1))
  rw [List.cons_append, List.take_append_drop] at hi
  exact ⟨i, _, hi⟩

theorem decode_eq_endOfBuffer_iff {bs : List Byte} : decode bs = .endOfBuffer ↔ bs = [] := by
  cases bs with
  | nil => simp
  | cons t payload =>
    refine iff_of_false (fun hend => ?_) (List.cons_ne_nil t payload)
    rcases lt_or_ge (payload.length + 1) (recLen t) with hshort | hlong
    · cases (decode_short hshort).symm.trans hend
    · obtain ⟨i, rest, hi⟩ := exists_decode_record hlong
      cases hi.symm.trans hend

/-- A sequence is truncated exactly when its first byte asks for more bytes than there are (R152). -/
theorem decode_eq_truncated_iff {bs : List Byte} {e a : Nat} :
    decode bs = .truncated e a ↔ ∃ t, bs[0]? = some t ∧ bs.length < recLen t ∧ e = recLen t ∧ a = bs.length := by
  cases bs with
  | nil => simp
  | cons t payload =>
    rcases lt_or_ge (payload.length + 1) (recLen t) with hshort | hlong
    · simp [decode_short hshort, hshort, eq_comm]
    · obtain ⟨i, rest, hi⟩ := exists_decode_record hlong
      simp [hi, hlong.not_gt]

/-- Settles O10: the truncations are those of the two tags, whose records have 3 and 5 bytes. -/
theorem decodeRejectionsAreTruncations : Obligations.DecodeRejectionsAreTruncations := by
  refine fun bs => ⟨decode_eq_endOfBuffer_iff, fun e a => decode_eq_truncated_iff.trans ⟨?_, ?_⟩⟩
  · rintro ⟨t, ht, hshort, rfl, rfl⟩
    rcases recLen_cases t with ⟨rfl, hlen⟩ | ⟨rfl, hlen⟩ | ⟨-, -, hlen⟩
    · exact ⟨rfl, .inl ⟨ht, hlen, by omega⟩⟩
    · exact ⟨rfl, .inr ⟨ht, hlen, by omega⟩⟩
    · obtain ⟨hpos, -⟩ := List.getElem?_eq_some_iff.mp ht
      omega
  · rintro ⟨rfl, ⟨ht, rfl, hle⟩ | ⟨ht, rfl, hle⟩⟩
    · exact ⟨_, ht, Nat.lt_succ_of_le hle, rfl, rfl⟩
    · exact ⟨_, ht, Nat.lt_succ_of_le hle, rfl, rfl⟩

/-- What the record decoder finds truncated, the closed form finds truncated (R164). -/
theorem decodeBuf_of_truncated {bs : List Byte} {e a : Nat} (h : decode bs = .truncated e a) :
    decodeBuf bs = .err e a := by
  cases bs with
  | nil => cases h
  | cons t payload =>
    obtain ⟨_, ⟨⟩, hshort, rfl, rfl⟩ := decode_eq_truncated_iff.mp h
    rw [List.length_cons] at hshort ⊢
    rcases recLen_cases t with ⟨rfl, hlen⟩ | ⟨rfl, hlen⟩ | ⟨-, -, hlen⟩
    · rw [hlen, decodeBuf_medium_short (by omega)]
    · rw [hlen, decodeBuf_large_short (by omega)]
    · omega

/-- Induction over the records of a byte sequence: it is used up, cut short, or begins with a decoder operation's bytes
(R95). -/
theorem record_induction {motive : List Byte → Prop} (endOfBuffer : motive [])
    (truncated : ∀ bs e a, decode bs = .truncated e a → motive bs)
    (record : ∀ i rest, isDec i = true → i.wf = true → motive rest → motive (encode i ++ rest)) (bs : List Byte) :
    motive bs := by
  cases hd : decode bs with
  | endOfBuffer => exact decode_eq_endOfBuffer_iff.mp hd ▸ endOfBuffer
  | truncated e a => exact truncated bs e a hd
  | record i rest =>
    obtain ⟨hi, hw, hbytes⟩ := decode_eq_record_iff.mp hd
    have hpos := encode_length_of_isDec hi
    have hlen : (encode i).length + rest.length = bs.length := by rw [← hbytes, List.length_append]
    exact hbytes ▸ record i rest hi hw (record_induction endOfBuffer truncated record rest)
termination_by bs.length

/-! ### What the framer fetches (R151, R152, R163) -/

/-- A slice of two parts reads as its parts. -/
theorem memSlice_append_iff {α : Type} {m : Memory α} {a : Nat} {xs ys : List α} :
    memSlice m a (xs ++ ys).length = some (xs ++ ys) ↔
      memSlice m a xs.length = some xs ∧ memSlice m (a + xs.length) ys.length = some ys := by
  rw [List.length_append]
  constructor
  · intro h
    have hx := memSlice_sub h (i := 0) (j := xs.length) (by omega)
    have hy := memSlice_sub h (i := xs.length) (j := ys.length) le_rfl
    simpa using And.intro hx hy
  · rintro ⟨hx, hy⟩
    exact memSlice_add m a xs.length ys.length hx hy

/-- The bytes of a record operation by its first byte (R84). -/
theorem encode_eq_cons {i : Instr} (hw : i.wf = true) :
    ∃ t payload, encode i = t :: payload ∧ payload.length = recLen t - 1 := by
  have hrow : Laws.RecordBytes.Statement i := by
    cases i with
    | decSmall u => exact Laws.RecordBytes.decSmall u
    | decMedium p0 p1 => exact Laws.RecordBytes.decMedium p0 p1
    | decLarge p0 p1 p2 p3 => exact Laws.RecordBytes.decLarge p0 p1 p2 p3
    | encSmall v => exact Laws.RecordBytes.encSmall v
    | encMedium v => exact Laws.RecordBytes.encMedium v
    | encLarge v => exact Laws.RecordBytes.encLarge v
  obtain ⟨t, payload, hbytes, hlen⟩ := hrow hw
  rw [hbytes, List.length_cons] at hlen
  exact ⟨t, payload, hbytes, by omega⟩

/-- In RUN with a whole record at the cursor, the decoder fetches its operation (R163). -/
theorem fetchDec_of_bytes {s : State} {i : Instr} (hi : isDec i = true) (hw : i.wf = true) (hrun : s.dec.ph = .run)
    (hfit : s.dec.cur + (encode i).length ≤ s.dec.len)
    (hbytes : memSlice s.dec.ib s.dec.cur (encode i).length = some (encode i)) : fetchDec s = .record i := by
  have hdecode : decode (encode i) = .record i [] := by simpa using decode_encode_append hi hw []
  obtain ⟨t, payload, henc, hlen⟩ := encode_eq_cons hw
  have hpos := recLen_pos t
  rw [henc] at hfit hbytes hdecode
  rw [List.length_cons] at hfit hbytes
  obtain ⟨ht, hpayload⟩ := memSlice_succ_eq_some_cons.mp hbytes
  have hne : s.dec.cur ≠ s.dec.len := by omega
  have hlong : ¬ s.dec.len - s.dec.cur < recLen t := by omega
  have hone : memReadOne .ib s.dec.ib s.dec.len s.dec.cur = .ok t := memReadOne_eq_ok.mpr ⟨by omega, ht⟩
  have hread : memRead .ib s.dec.ib s.dec.len (s.dec.cur + 1) (recLen t - 1) = .ok payload :=
    memRead_eq_ok.mpr ⟨by omega, hlen ▸ hpayload⟩
  simp [fetchDec, fetchPayload, hrun, hne, hone, hlong, hread, hdecode]

/-- In RUN at a tag with too few bytes after it, the decoder fetches the error step (R152). -/
theorem fetchDec_of_short {s : State} {t : Byte} (hrun : s.dec.ph = .run) (hlt : s.dec.cur < s.dec.len)
    (ht : memGet s.dec.ib s.dec.cur = some t) (hshort : s.dec.len - s.dec.cur < recLen t) :
    fetchDec s = .short (recLen t) (s.dec.len - s.dec.cur) := by
  have hone : memReadOne .ib s.dec.ib s.dec.len s.dec.cur = .ok t := memReadOne_eq_ok.mpr ⟨hlt, ht⟩
  simp [fetchDec, hrun, hlt.ne, hone, hshort]

/-- In RUN where the bytes left decode to a record, the decoder's step is that operation. -/
theorem unitStep_dec_of_record {s : State} {bs rest : List Byte} {i : Instr} (hrun : s.dec.ph = .run)
    (hall : s.dec.cur + bs.length = s.dec.len) (hbs : memSlice s.dec.ib s.dec.cur bs.length = some bs)
    (hd : decode bs = .record i rest) : unitStep .dec s = exec i s := by
  obtain ⟨hi, hw, rfl⟩ := decode_eq_record_iff.mp hd
  obtain ⟨hrec, -⟩ := memSlice_append_iff.mp hbs
  rw [List.length_append] at hall
  exact unitStep_of_record (fetchDec_of_bytes hi hw hrun (by omega) hrec)

/-- In RUN where the bytes left are a truncated record, the decoder's step is the error step (R203). -/
theorem unitStep_dec_of_truncated {s : State} {bs : List Byte} {e a : Nat} (hrun : s.dec.ph = .run)
    (hall : s.dec.cur + bs.length = s.dec.len) (hbs : memSlice s.dec.ib s.dec.cur bs.length = some bs)
    (hd : decode bs = .truncated e a) : a = bs.length ∧ unitStep .dec s = .next (takeTruncated e a s) := by
  obtain ⟨t, ht, hshort, rfl, rfl⟩ := decode_eq_truncated_iff.mp hd
  obtain ⟨hpos, -⟩ := List.getElem?_eq_some_iff.mp ht
  have hget : memGet s.dec.ib s.dec.cur = some t := (((memSlice_eq_some _ _ _ _).mp hbs).2 0 hpos).trans ht
  have hrem : s.dec.len - s.dec.cur = bs.length := by omega
  have hfetch : fetch .dec s = .short (recLen t) (s.dec.len - s.dec.cur) :=
    fetchDec_of_short hrun (by omega) hget (by omega)
  rw [hrem] at hfetch
  exact ⟨rfl, unitStep_of_short hfetch⟩

/-- Settles O19: the bytes left begin with the record the framer fetches. -/
theorem stepRunsDecodedRecord : Obligations.StepRunsDecodedRecord := by
  intro s ts bs i rest hts hrun hlt hbs hd
  have hlen := memSlice_length hbs
  rw [step_of_unit_turn hts]
  exact unitStep_dec_of_record (s := s.withTurns ts) hrun (by rw [State.withTurns_dec]; omega) (hlen ▸ hbs) hd

/-! ### What a decoder operation does (R154 to R157) -/

/-- A decoder operation with its record's bytes left and room completes (R157). -/
theorem exec_dec_appends {s : State} {i : Instr} (hi : isDec i = true) (hrun : s.dec.ph = .run)
    (hfit : s.dec.cur + (encode i).length ≤ s.dec.len) (hroom : within s.par.bmax (s.dec.ocnt + 1) = true) :
    exec i s = .next (s.withDec (s.dec.append (encode i).length (carried i))) := by
  have hlen := encode_length_of_isDec hi
  rw [exec_dec hi]
  exact decRecord_eq_next.mpr ⟨hrun, by omega, .inr ⟨by omega, hroom, rfl⟩⟩

/-- A decoder operation stores the value it carries at `OCNT`, and changes nothing else but the count and the cursor. -/
theorem exec_dec_effect {s : State} {i : Instr} (hi : isDec i = true) (hrun : s.dec.ph = .run)
    (hfit : s.dec.cur + (encode i).length ≤ s.dec.len) (hroom : within s.par.bmax (s.dec.ocnt + 1) = true) :
    ∃ t : State, exec i s = .next t ∧ memGet t.dec.ov s.dec.ocnt = some (carried i) ∧
      (∀ a, a ≠ s.dec.ocnt → memGet t.dec.ov a = memGet s.dec.ov a) ∧
      t = { s with dec := { s.dec with
        ov := t.dec.ov, ocnt := s.dec.ocnt + 1, cur := s.dec.cur + (encode i).length } } :=
  ⟨_, exec_dec_appends hi hrun hfit hroom, memGet_memSet_self _ _ _, fun _ ha => memGet_memSet_ne _ _ ha, rfl⟩

/-- A decoder operation with too few bytes left takes Truncated Record (log 8). -/
theorem exec_dec_truncates {s : State} {i : Instr} {rem : Nat} (hi : isDec i = true) (hrun : s.dec.ph = .run)
    (hlen : s.dec.len = s.dec.cur + rem) (hpos : 1 ≤ rem) (hshort : rem < (encode i).length) :
    exec i s = .next (takeTruncated (encode i).length rem s) := by
  have hrem : s.dec.len - s.dec.cur = rem := by omega
  rw [exec_dec hi, ← hrem]
  exact decRecord_eq_next.mpr ⟨hrun, by omega, .inl ⟨by omega, rfl⟩⟩

/-- The value of a small record needs no wider word (R154). -/
theorem toInt_toValue_sint8 (u : Byte) : (toValue (sint8 u)).toInt = sint8 u := by
  obtain ⟨hlo, hhi⟩ := sint8_range u
  exact toInt_toValue (le_trans (by decide) hlo) (le_trans hhi (by decide))

theorem wf_decSmall_iff (u : Byte) : (Instr.decSmall u).wf = true ↔ -126 ≤ sint8 u ∧ sint8 u ≤ 127 := by
  simp [sint8_mem_small_iff, Instr.wf, tagMedium, tagLarge]

/-- Each value of the small domain has one byte that is no tag (R154). -/
theorem existsUnique_small_byte {x : Int} (h1 : -126 ≤ x) (h2 : x ≤ 127) :
    ∃! u : Byte, (Instr.decSmall u).wf = true ∧ sint8 u = x := by
  have hback : sint8 (u8 x) = x := sint8_u8 h1 h2
  refine ⟨u8 x, ⟨(wf_decSmall_iff _).mpr (hback.symm ▸ ⟨h1, h2⟩), hback⟩, fun u ⟨_, hu⟩ => ?_⟩
  exact sint8_inj.mp (hu.trans hback.symm)

/-- Settles O12: the effect and the fetch of any decoder operation, at a byte that is no tag. -/
theorem decSmallAppendsSignedByte : Obligations.DecSmallAppendsSignedByte := by
  refine ⟨fun s u hw hrun hlt hroom => ?_, fun s u hrun hlt hu hm hl => ?_, fun x => existsUnique_small_byte⟩
  · obtain ⟨hlo, hhi⟩ := (wf_decSmall_iff u).mp hw
    have hval : (carried (.decSmall u)).toInt = sint8 u := toInt_toValue_sint8 u
    obtain ⟨t, hexec, hnew, hframe, ht⟩ := exec_dec_effect (i := .decSmall u) rfl hrun hlt hroom
    exact ⟨t, _, hexec, hnew, hval, hval.symm ▸ hlo, hval.symm ▸ hhi, hframe, ht⟩
  · have hw : (Instr.decSmall u).wf = true := (wf_decSmall_iff u).mpr ((sint8_mem_small_iff u).mpr ⟨hm, hl⟩)
    exact fetchDec_of_bytes rfl hw hrun hlt (memSlice_succ_eq_some_cons.mpr ⟨hu, rfl⟩)

theorem gather16_eq_sum (p0 p1 : Byte) : gather16 p0 p1 = p0.toNat + 256 * p1.toInt := by
  rw [gather16, alignHigh_one]

theorem gather32_eq_sum (p0 p1 p2 p3 : Byte) :
    gather32 p0 p1 p2 p3 = p0.toNat + 256 * p1.toNat + 65536 * p2.toNat + 16777216 * p3.toInt := by
  rw [gather32, alignHigh_three]
  ring

/-- Each medium value has one payload: its own (R119). -/
theorem existsUnique_medium_payload {x : Int} (h1 : mediumMin ≤ x) (h2 : x ≤ mediumMax) :
    ∃! p : Byte × Byte, gather16 p.1 p.2 = x := by
  obtain ⟨p0, p1, rfl⟩ := exists_gather16_eq h1 h2
  refine ⟨(p0, p1), rfl, fun ⟨q0, q1⟩ hq => ?_⟩
  have hsplit := congrArg (fun v => split16 (toValue v)) hq
  simpa [split16_gather16] using hsplit

/-- Each 32-bit value has one large payload: its own (R119). -/
theorem existsUnique_large_payload {x : Int} (h1 : int32Min ≤ x) (h2 : x ≤ int32Max) :
    ∃! p : Byte × Byte × Byte × Byte, gather32 p.1 p.2.1 p.2.2.1 p.2.2.2 = x := by
  obtain ⟨p0, p1, p2, p3, rfl⟩ := exists_gather32_eq h1 h2
  refine ⟨(p0, p1, p2, p3), rfl, fun ⟨q0, q1, q2, q3⟩ hq => ?_⟩
  have hsplit := congrArg (fun v => split32 (toValue v)) hq
  simpa [split32_gather32] using hsplit

/-- Settles O13: the effect and the fetch of any decoder operation, with the sum that `gather16` is. -/
theorem decMediumAppendsGatheredPayload : Obligations.DecMediumAppendsGatheredPayload := by
  refine ⟨fun s p0 p1 hrun hfit hroom => ?_, fun s p0 p1 rem hrun hlen hpos hshort => ?_,
    fun s p0 p1 hrun hfit hbytes => ?_, fun x h1 h2 => ?_⟩
  · have hval : (carried (.decMedium p0 p1)).toInt = p0.toNat + 256 * p1.toInt :=
      (toInt_toValue_gather16 p0 p1).trans (gather16_eq_sum p0 p1)
    obtain ⟨t, hexec, hnew, hframe, ht⟩ := exec_dec_effect (i := .decMedium p0 p1) rfl hrun hfit hroom
    exact ⟨t, _, hexec, hnew, hval, hframe, ht⟩
  · exact exec_dec_truncates (i := .decMedium p0 p1) rfl hrun hlen hpos (Nat.lt_succ_of_le hshort)
  · exact fetchDec_of_bytes rfl rfl hrun hfit hbytes
  · simpa only [gather16_eq_sum] using existsUnique_medium_payload h1 h2

/-- Settles O14: the effect and the fetch of any decoder operation, with the sum that `gather32` is. -/
theorem decLargeAppendsGatheredPayload : Obligations.DecLargeAppendsGatheredPayload := by
  refine ⟨fun s p0 p1 p2 p3 hrun hfit hroom => ?_, fun s p0 p1 p2 p3 rem hrun hlen hpos hshort => ?_,
    fun s p0 p1 p2 p3 hrun hfit hbytes => ?_, fun x h1 h2 => ?_⟩
  · have hval : (carried (.decLarge p0 p1 p2 p3)).toInt =
        p0.toNat + 256 * p1.toNat + 65536 * p2.toNat + 16777216 * p3.toInt :=
      (toInt_toValue_gather32 p0 p1 p2 p3).trans (gather32_eq_sum p0 p1 p2 p3)
    obtain ⟨t, hexec, hnew, hframe, ht⟩ := exec_dec_effect (i := .decLarge p0 p1 p2 p3) rfl hrun hfit hroom
    exact ⟨t, _, hexec, hnew, hval, hframe, ht⟩
  · exact exec_dec_truncates (i := .decLarge p0 p1 p2 p3) rfl hrun hlen hpos (Nat.lt_succ_of_le hshort)
  · exact fetchDec_of_bytes rfl rfl hrun hfit hbytes
  · simpa only [gather32_eq_sum] using existsUnique_large_payload h1 h2

/-! ### A run of the decoder to its end (R163, R164) -/

/-- The decoder `t` is the decoder `d` at the end of a run whose result is `r`: every value appended, or the error
fields set with the cursor at the record that is cut short. The values appended before an error are discarded, so the
elements they leave in `OV` are not told (R205). -/
def Dec.EndsWith (d : Dec) (r : DecodeResult) (t : Dec) : Prop :=
  match r with
  | .ok vs => t = { d with
      ov := memWrite d.ov d.ocnt vs, ocnt := d.ocnt + vs.length, cur := d.len, ph := .done }
  | .err e a => ∃ ov, t = { d with ov := ov, cur := d.len - a }.raiseTruncated e a

theorem Dec.endsWith_ok {d t : Dec} {vs : List Value} : d.EndsWith (.ok vs) t ↔ t = { d with
    ov := memWrite d.ov d.ocnt vs, ocnt := d.ocnt + vs.length, cur := d.len, ph := .done } := Iff.rfl

theorem Dec.endsWith_err {d t : Dec} {e a : Nat} :
    d.EndsWith (.err e a) t ↔ ∃ ov, t = { d with ov := ov, cur := d.len - a }.raiseTruncated e a := Iff.rfl

/-- The finishing step ends a run that has nothing left to decode. -/
theorem Dec.endsWith_finish {d : Dec} (hend : d.cur = d.len) : d.EndsWith (.ok []) d.finish := by
  simp [endsWith_ok, Dec.finish, hend]

/-- The error step ends a run with the bytes left as `AVL`. -/
theorem Dec.endsWith_raiseTruncated {d : Dec} {a : Nat} (e : Nat) (hall : d.cur + a = d.len) :
    d.EndsWith (.err e a) (d.raiseTruncated e a) := by
  have hcur : d.len - a = d.cur := by omega
  exact endsWith_err.mpr ⟨d.ov, by rw [hcur]⟩

/-- A record step puts its value before the rest of the result. -/
theorem Dec.endsWith_of_append {d t : Dec} {need : Nat} {v : Value} {r : DecodeResult}
    (h : (d.append need v).EndsWith r t) : d.EndsWith (consResult v r) t := by
  cases r with
  | ok vs =>
    rw [consResult_ok, endsWith_ok, endsWith_ok.mp h]
    simp [Dec.append, Nat.add_assoc, Nat.add_comm 1]
  | err e a => exact h

/-- A running decoder with readable bytes `bs` left and room for as many values ends with `decode(bs)`, after at most
one step for each byte and one more (R164). -/
theorem runUnit_dec_ends {s : State} {bs : List Byte} (hrun : s.dec.ph = .run)
    (hall : s.dec.cur + bs.length = s.dec.len) (hbs : memSlice s.dec.ib s.dec.cur bs.length = some bs)
    (hroom : within s.par.bmax (s.dec.ocnt + bs.length) = true) :
    ∃ k d, 1 ≤ k ∧ k ≤ bs.length + 1 ∧ runUnit .dec k s = .next (s.withDec d) ∧ s.dec.EndsWith (decodeBuf bs) d := by
  induction bs using record_induction generalizing s with
  | endOfBuffer =>
    rw [decodeBuf_nil]
    exact ⟨1, s.dec.finish, le_rfl, le_rfl, runUnit_one (unitStep_dec_of_end hrun hall), Dec.endsWith_finish hall⟩
  | truncated bs e a hd =>
    obtain ⟨rfl, hstep⟩ := unitStep_dec_of_truncated hrun hall hbs hd
    rw [decodeBuf_of_truncated hd]
    exact ⟨1, _, le_rfl, by omega, runUnit_one hstep, Dec.endsWith_raiseTruncated e hall⟩
  | record i rest hi hw ih =>
    have hstep := unitStep_dec_of_record hrun hall hbs (decode_encode_append hi hw rest)
    obtain ⟨-, hrest⟩ := memSlice_append_iff.mp hbs
    have hlen := encode_length_of_isDec hi
    rw [List.length_append] at hall hroom ⊢
    rw [exec_dec_appends hi hrun (by omega) (within_mono hroom (by omega))] at hstep
    obtain ⟨k, d, -, hk, hgo, hends⟩ := ih (s := s.withDec (s.dec.append (encode i).length (carried i))) hrun
      (by simp only [State.withDec_dec, Dec.append_cur, Dec.append_len]; omega) hrest
      (within_mono hroom (by simp only [State.withDec_dec, Dec.append_ocnt]; omega))
    rw [decodeBuf_encode_append hi hw]
    exact ⟨k + 1, d, by omega, by omega, runUnit_succ_eq_next.mpr ⟨_, hstep, hgo⟩, Dec.endsWith_of_append hends⟩

/-! ### The DECODE transaction (R165) -/

/-- From a start within the capacity, the decoder ends with `decode` of the input. -/
theorem runUnit_dec_started (s : State) {bs : List Byte} (hcap : within s.par.bmax bs.length = true) :
    ∃ k d, 1 ≤ k ∧ k ≤ bs.length + 1 ∧ runUnit .dec k (s.withDec (s.dec.start bs)) = .next (s.withDec d) ∧
      (s.dec.start bs).EndsWith (decodeBuf bs) d := by
  refine runUnit_dec_ends (s := s.withDec (s.dec.start bs)) rfl (Nat.zero_add _)
    (memSlice_memWrite_self s.dec.ib 0 bs) ?_
  simpa using hcap

/-- The turn of an allowed `DEC.start` (R22). -/
theorem step_of_decStart_turn {s : State} {bs : List Byte} (ts : List Turn) (hph : s.dec.ph ≠ .run)
    (hcap : within s.par.bmax bs.length = true) :
    step (s.withTurns (.host (.decStart bs) :: ts)) = .next ((s.withDec (s.dec.start bs)).withTurns ts) :=
  (step_of_host_turn rfl).trans (hostMove_decStart_allowed (s := s.withTurns ts) hph hcap)

/-- The turn of an allowed `DEC.read` (R22). -/
theorem step_of_decRead_turn {s : State} {vs : List Value} (ts : List Turn) (hph : s.dec.ph = .done)
    (hvs : memSlice s.dec.ov 0 s.dec.ocnt = some vs) :
    step (s.withTurns (.host .decRead :: ts)) =
      .next ((s.withTurns ts).receive (.decoded s.dec.err s.dec.exp s.dec.avl vs)) :=
  (step_of_host_turn rfl).trans (hostMove_decRead_done (s := s.withTurns ts) hph hvs)

/-- The start's turn, the turns of a run that ends with the decoder `d` in DONE, and the read's turn. -/
theorem runSteps_decode {s : State} {bs : List Byte} {k : Nat} {d : Dec} {vs : List Value} (hph : s.dec.ph ≠ .run)
    (hcap : within s.par.bmax bs.length = true)
    (hgo : runUnit .dec k (s.withDec (s.dec.start bs)) = .next (s.withDec d)) (hdone : d.ph = .done)
    (hvs : memSlice d.ov 0 d.ocnt = some vs) :
    runSteps (k + 2) (s.withTurns (.host (.decStart bs) :: (List.replicate k (.unit .dec) ++ [.host .decRead]))) =
      .next (((s.withDec d).withTurns []).receive (.decoded d.err d.exp d.avl vs)) := by
  have hread := step_of_decRead_turn (s := s.withDec d) [] hdone hvs
  exact (runSteps_succ (step_of_decStart_turn _ hph hcap) (k + 1)).trans
    ((runSteps_unit_turns hgo [.host .decRead] 1).trans (runSteps_succ hread 0))

/-- Settles O42: the run after the start ends with `decode(bs)`, and the read returns what that leaves. -/
theorem decodeTransaction : Obligations.DecodeTransaction := by
  intro s bs hph hcap
  obtain ⟨k, d, hpos, hk, hgo, hends⟩ := runUnit_dec_started s hcap
  have hinput : memSlice (s.dec.start bs).ib 0 bs.length = some bs := memSlice_memWrite_self s.dec.ib 0 bs
  cases hr : decodeBuf bs with
  | ok vs =>
    rw [hr, Dec.endsWith_ok, Dec.start_ocnt, Nat.zero_add] at hends
    subst hends
    have hout := memSlice_memWrite_self (s.dec.start bs).ov 0 vs
    exact ⟨k, _, hpos, hk, runSteps_decode hph hcap hgo rfl hout, rfl, hinput, rfl, rfl, rfl, rfl, rfl, hout, rfl, rfl⟩
  | err e a =>
    rw [hr, Dec.endsWith_err] at hends
    obtain ⟨ov, rfl⟩ := hends
    exact ⟨k, _, hpos, hk, runSteps_decode hph hcap hgo rfl rfl, rfl, hinput, rfl, rfl, rfl, rfl, rfl, rfl, rfl⟩

end Sys2Proof.Machine
end

section
/-! PROOFS. The properties of the codec (43_properties.md): an encoding is the bytes of its values' canonical records, a
buffer that decodes is the bytes of exactly one sequence of records, and what cuts a buffer short. -/

namespace Sys2Proof.Machine

/-! ### Sequences of records (R95) -/

/-- Operations the decoder can read. -/
def AreRecords (rs : List Instr) : Prop := ∀ r ∈ rs, isDec r = true ∧ r.wf = true

/-- The bytes of the operations, one after the other. -/
def recordBytes (rs : List Instr) : List Byte := (rs.map encode).flatten

@[simp] theorem areRecords_nil : AreRecords [] := List.forall_mem_nil _

@[simp] theorem areRecords_cons (r : Instr) (rs : List Instr) :
    AreRecords (r :: rs) ↔ (isDec r = true ∧ r.wf = true) ∧ AreRecords rs := List.forall_mem_cons

@[simp] theorem recordBytes_nil : recordBytes [] = [] := rfl

@[simp] theorem recordBytes_cons (r : Instr) (rs : List Instr) :
    recordBytes (r :: rs) = encode r ++ recordBytes rs := rfl

/-- The values of a sequence of records are those they carry (R164). -/
theorem decodeBuf_recordBytes {rs : List Instr} (h : AreRecords rs) :
    decodeBuf (recordBytes rs) = .ok (rs.map carried) := by
  induction rs with
  | nil => exact decodeBuf_nil
  | cons r rs ih =>
    obtain ⟨⟨hd, hw⟩, hrs⟩ := (areRecords_cons r rs).mp h
    rw [recordBytes_cons, decodeBuf_encode_append hd hw, ih hrs, consResult_ok, List.map_cons]

/-- A buffer that decodes is a sequence of records (R95). -/
theorem exists_records_of_decodeBuf {b : List Byte} {vs : List Value} (h : decodeBuf b = .ok vs) :
    ∃ rs, AreRecords rs ∧ recordBytes rs = b ∧ rs.map carried = vs := by
  induction b using record_induction generalizing vs with
  | endOfBuffer => cases decodeBuf_nil.symm.trans h; exact ⟨[], areRecords_nil, rfl, rfl⟩
  | truncated bs e a hd => cases (decodeBuf_of_truncated hd).symm.trans h
  | record i rest hi hw ih =>
    rw [decodeBuf_encode_append hi hw] at h
    obtain ⟨ws, hws, rfl⟩ := consResult_eq_ok.mp h
    obtain ⟨rs, hrs, rfl, rfl⟩ := ih hws
    exact ⟨i :: rs, (areRecords_cons i rs).mpr ⟨⟨hi, hw⟩, hrs⟩, rfl, rfl⟩

/-- No record is the beginning of another: the first record of a byte sequence and what follows it are determined. -/
theorem encode_append_inj {i j : Instr} {x y : List Byte} (hi : isDec i = true ∧ i.wf = true)
    (hj : isDec j = true ∧ j.wf = true) (h : encode i ++ x = encode j ++ y) : i = j ∧ x = y := by
  have hread := decode_encode_append hi.1 hi.2 x
  rw [h, decode_encode_append hj.1 hj.2 y] at hread
  cases hread
  exact ⟨rfl, rfl⟩

/-- A sequence of records has 1 to 5 bytes for each (R84). -/
theorem recordBytes_length_bounds {rs : List Instr} (h : AreRecords rs) :
    rs.length ≤ (recordBytes rs).length ∧ (recordBytes rs).length ≤ 5 * rs.length := by
  induction rs with
  | nil => exact ⟨le_rfl, le_rfl⟩
  | cons r rs ih =>
    obtain ⟨⟨hd, -⟩, hrs⟩ := (areRecords_cons r rs).mp h
    have hlen := encode_length_of_isDec hd
    have hbounds := ih hrs
    simp only [recordBytes_cons, List.length_append, List.length_cons]
    omega

theorem eq_nil_of_recordBytes {rs : List Instr} (h : AreRecords rs) (hnil : recordBytes rs = []) : rs = [] := by
  obtain ⟨hle, -⟩ := recordBytes_length_bounds h
  rw [hnil] at hle
  exact List.length_eq_zero_iff.mp (Nat.le_zero.mp hle)

/-- A byte sequence is split into records in one way at most (R95). -/
theorem recordBytes_inj {rs qs : List Instr} (hrs : AreRecords rs) (hqs : AreRecords qs) :
    recordBytes rs = recordBytes qs ↔ rs = qs := by
  refine ⟨fun h => ?_, congrArg recordBytes⟩
  induction rs generalizing qs with
  | nil => exact (eq_nil_of_recordBytes hqs h.symm).symm
  | cons r rs ih =>
    cases qs with
    | nil => exact eq_nil_of_recordBytes hrs h
    | cons q qs =>
      obtain ⟨hr, htail⟩ := (areRecords_cons r rs).mp hrs
      obtain ⟨hq, htail'⟩ := (areRecords_cons q qs).mp hqs
      obtain ⟨rfl, hrest⟩ := encode_append_inj hr hq h
      exact congrArg (r :: ·) (ih htail htail' hrest)

/-! ### The canonical record of a value (R90, R135) -/

/-- The decoder operation that reads the record emitted for a value. -/
def canonicalRecord (v : Value) : Instr := decoderForm (selectRecord v)

theorem canonicalRecord_isRecord (v : Value) : isDec (canonicalRecord v) = true ∧ (canonicalRecord v).wf = true :=
  ⟨isDec_decoderForm _, wf_decoderForm (wf_selectRecord v)⟩

theorem areRecords_canonicalRecord (vs : List Value) : AreRecords (vs.map canonicalRecord) := fun _ hr => by
  obtain ⟨v, -, rfl⟩ := List.mem_map.mp hr
  exact canonicalRecord_isRecord v

@[simp] theorem encode_canonicalRecord (v : Value) : encode (canonicalRecord v) = enc1 v := by
  rw [canonicalRecord, encode_decoderForm, encode_selectRecord]

@[simp] theorem carried_canonicalRecord (v : Value) : carried (canonicalRecord v) = v := by
  rw [canonicalRecord, carried_decoderForm (wf_selectRecord v), carried_selectRecord]

/-- An encoding is the bytes of its values' canonical records (R137). -/
theorem recordBytes_canonicalRecord (vs : List Value) : recordBytes (vs.map canonicalRecord) = encodeSeq vs := by
  induction vs with
  | nil => rfl
  | cons v vs ih => rw [List.map_cons, recordBytes_cons, encode_canonicalRecord, ih, encodeSeq_cons]

/-- Settles O44: the canonical records of the values decode to the values they carry. -/
theorem roundTrip : Obligations.RoundTrip := by
  intro vs
  rw [← recordBytes_canonicalRecord, decodeBuf_recordBytes (areRecords_canonicalRecord vs)]
  simp [Function.comp_def]

/-- The record of a value, then the rest (R164). -/
theorem decodeBuf_enc1_append (v : Value) (rest : List Byte) :
    decodeBuf (enc1 v ++ rest) = consResult v (decodeBuf rest) := by
  obtain ⟨hd, hw⟩ := canonicalRecord_isRecord v
  rw [← encode_canonicalRecord, decodeBuf_encode_append hd hw, carried_canonicalRecord]

/-- Settles O49: a concatenation is a sequence of its own, and decodes as one. -/
theorem concatenation : Obligations.Concatenation := fun a b =>
  ⟨encodeSeq_append a b, encodeSeq_append a b ▸ roundTrip (a ++ b)⟩

/-- Settles O50: decoding goes on with the values of `y` or with its error. -/
theorem decodeOfConcatenation : Obligations.DecodeOfConcatenation := by
  refine fun x y a hx => ⟨fun c hy => ?_, fun e n hy => ?_⟩
  · rw [decodeBuf_append hx, hy, foldr_consResult_ok]
  · rw [decodeBuf_append hx, hy, foldr_consResult_err]

/-! ### The length of a record (R181) -/

/-- The length of a value's record by its domain (R181). -/
theorem enc1_length (v : Value) : (enc1 v).length =
    if -126 ≤ v.toInt ∧ v.toInt ≤ 127 then 1
    else if (-32768 ≤ v.toInt ∧ v.toInt ≤ -127) ∨ (128 ≤ v.toInt ∧ v.toInt ≤ 32767) then 3 else 5 := by
  rw [← encode_selectRecord]
  rcases selectRecord_cases v with ⟨hsel, hrange⟩ | ⟨hsel, hrange⟩ | ⟨hsel, hrange⟩
  · rw [hsel, if_pos hrange]; rfl
  · rw [hsel, if_neg (by omega), if_pos hrange]; rfl
  · rw [hsel, if_neg (by omega), if_neg (by omega)]; rfl

/-- Settles O45. -/
theorem lengthBounds : Obligations.LengthBounds := fun v => by
  rw [encodeSeq_cons, encodeSeq_nil, List.append_nil, enc1_length]

/-- No record that carries a value is shorter than its canonical one (R188). -/
theorem enc1_carried_length_le {r : Instr} (hd : isDec r = true) (hw : r.wf = true) :
    (enc1 (carried r)).length ≤ (encode r).length := by
  cases r with
  | decSmall u =>
    have hrange := (wf_decSmall_iff u).mp hw
    rw [carried, enc1_length, toInt_toValue_sint8, if_pos hrange]
    exact le_rfl
  | decMedium p0 p1 =>
    obtain ⟨h1, h2⟩ := gather16_range p0 p1
    rw [carried, enc1_length, toInt_toValue_gather16, show (encode (.decMedium p0 p1)).length = 3 from rfl]
    simp only [mediumMin, mediumMax] at h1 h2
    split_ifs <;> omega
  | decLarge p0 p1 p2 p3 => exact (enc1_length_bounds _).2
  | encSmall _ => cases hd
  | encMedium _ => cases hd
  | encLarge _ => cases hd

/-! ### Injectivity and canonical buffers (R188) -/

theorem encodeSeq_injective : Function.Injective encodeSeq := fun vs ws h => by
  have hdecode := roundTrip vs
  rw [h, roundTrip ws] at hdecode
  cases hdecode
  rfl

/-- A record is the canonical one of its value exactly when its bytes are (R188). -/
theorem canonicalRecord_carried_iff {r : Instr} (hr : isDec r = true ∧ r.wf = true) :
    canonicalRecord (carried r) = r ↔ encode r = enc1 (carried r) := by
  rw [← encode_canonicalRecord]
  refine ⟨fun h => by rw [h], fun h => ?_⟩
  exact (encode_append_inj (x := []) (y := []) (canonicalRecord_isRecord _) hr (by rw [h])).1

/-- The encoding of the values of a buffer is the buffer exactly when every record is canonical (R188). -/
theorem encodeSeq_carried_eq_iff {rs : List Instr} (h : AreRecords rs) :
    encodeSeq (rs.map carried) = recordBytes rs ↔ ∀ r ∈ rs, encode r = enc1 (carried r) := by
  rw [← recordBytes_canonicalRecord, recordBytes_inj (areRecords_canonicalRecord _) h, List.map_map]
  conv_lhs => rhs; rw [← List.map_id rs]
  rw [List.map_inj_left]
  exact forall₂_congr fun r hr => canonicalRecord_carried_iff (h r hr)

/-- The encoding of the values of a buffer is never longer than the buffer (R188). -/
theorem encodeSeq_carried_length_le {rs : List Instr} (h : AreRecords rs) :
    (encodeSeq (rs.map carried)).length ≤ (recordBytes rs).length := by
  induction rs with
  | nil => exact le_rfl
  | cons r rs ih =>
    obtain ⟨⟨hd, hw⟩, hrs⟩ := (areRecords_cons r rs).mp h
    simp only [List.map_cons, encodeSeq_cons, recordBytes_cons, List.length_append]
    exact Nat.add_le_add (enc1_carried_length_le hd hw) (ih hrs)

/-- A buffer that decodes is a sequence of records in exactly one way (R95, R188). -/
theorem existsUnique_records {b : List Byte} {vs : List Value} (h : decodeBuf b = .ok vs) :
    ∃! rs, AreRecords rs ∧ recordBytes rs = b := by
  obtain ⟨rs, hrs, rfl, -⟩ := exists_records_of_decodeBuf h
  exact ⟨rs, ⟨hrs, rfl⟩, fun _ ⟨hqs, hbytes⟩ => (recordBytes_inj hqs hrs).mp hbytes⟩

/-- Settles O51: the split into records, the canonical ones among them, and three records of the value 5. -/
theorem injectivityAndCanonicalRecords : Obligations.InjectivityAndCanonicalRecords :=
  ⟨encodeSeq_injective, fun _ _ h => existsUnique_records h,
    fun _ h => ⟨decodeBuf_recordBytes h, encodeSeq_carried_eq_iff h, encodeSeq_carried_length_le h⟩,
    by decide, by decide, by decide⟩

/-- Settles O54: the values of a buffer are as many as its records. -/
theorem sizeBounds : Obligations.SizeBounds := by
  refine ⟨encodeSeq_length_bounds, fun b vs h => ?_⟩
  obtain ⟨rs, hrs, rfl, rfl⟩ := exists_records_of_decodeBuf h
  rw [List.length_map]
  exact recordBytes_length_bounds hrs

/-! ### Errors and cuts (R189, R190) -/

theorem consResult_eq_err {v : Value} {r : DecodeResult} {e n : Nat} : consResult v r = .err e n ↔ r = .err e n := by
  cases r <;> simp

/-- Decoding fails exactly where a part that decodes is followed by a truncated record (R189). -/
theorem decodeBuf_eq_err_iff {b : List Byte} {e n : Nat} : decodeBuf b = .err e n ↔
    ∃ pre suf vs, b = pre ++ suf ∧ decodeBuf pre = .ok vs ∧ decode suf = .truncated e n := by
  constructor
  · intro h
    induction b using record_induction with
    | endOfBuffer => cases decodeBuf_nil.symm.trans h
    | truncated bs e' a hd =>
      cases (decodeBuf_of_truncated hd).symm.trans h
      exact ⟨[], bs, [], rfl, decodeBuf_nil, hd⟩
    | record i rest hi hw ih =>
      rw [decodeBuf_encode_append hi hw] at h
      obtain ⟨pre, suf, vs, rfl, hpre, hsuf⟩ := ih (consResult_eq_err.mp h)
      refine ⟨encode i ++ pre, suf, carried i :: vs, (List.append_assoc _ _ _).symm, ?_, hsuf⟩
      rw [decodeBuf_encode_append hi hw, hpre, consResult_ok]
  · rintro ⟨pre, suf, vs, rfl, hpre, hsuf⟩
    rw [decodeBuf_append hpre, decodeBuf_of_truncated hsuf, foldr_consResult_err]

/-- Settles O52: the truncations are those of O10, and a sequence that has a first byte is not empty. -/
theorem decodeErrorsExactly : Obligations.DecodeErrorsExactly := by
  intro b e n
  rw [decodeBuf_eq_err_iff]
  refine exists₃_congr fun pre suf vs => and_congr_right' (and_congr_right' ?_)
  rw [(decodeRejectionsAreTruncations suf).2 e n]
  refine and_congr_right fun hn => ?_
  have hpos {t : Byte} (ht : suf[0]? = some t) : 1 ≤ n := hn ▸ (List.getElem?_eq_some_iff.mp ht).1
  refine or_congr (and_congr_right fun ht => and_congr_right' ?_) (and_congr_right fun ht => and_congr_right' ?_)
  · have := hpos ht
    omega
  · have := hpos ht
    omega

/-- A value's record cut short is its own truncation (R152). -/
theorem decode_take_enc1 {v : Value} {k : Nat} (hpos : 0 < k) (hk : k < (enc1 v).length) :
    decode ((enc1 v).take k) = .truncated (enc1 v).length k := by
  obtain ⟨t, payload, hbytes, hlen⟩ := encode_eq_cons (wf_selectRecord v)
  have hrec := recLen_pos t
  rw [encode_selectRecord] at hbytes
  rw [hbytes, List.length_cons] at hk ⊢
  obtain ⟨j, rfl⟩ : ∃ j, k = j + 1 := Nat.exists_eq_add_one.mpr hpos
  have htake : (payload.take j).length = j := List.length_take_of_le (by omega)
  rw [List.take_succ_cons, decode_short (by omega), htake, hlen, Nat.sub_add_cancel hrec]

/-- A position in an encoding is at the end of some of the values' records, or strictly inside the next record. -/
theorem exists_cut_position {vs : List Value} {k n : Nat} (hn : n ≤ vs.length)
    (hk : k ≤ (encodeSeq (vs.take n)).length) :
    ∃ j, j ≤ vs.length ∧ (k = (encodeSeq (vs.take j)).length ∨ ∃ v, vs[j]? = some v ∧
      (encodeSeq (vs.take j)).length < k ∧ k < (encodeSeq (vs.take j)).length + (enc1 v).length) := by
  induction n with
  | zero => exact ⟨0, Nat.zero_le _, .inl (Nat.le_zero.mp hk)⟩
  | succ n ih =>
    have hv : vs[n]? = some vs[n] := List.getElem?_eq_getElem hn
    rcases le_or_gt k (encodeSeq (vs.take n)).length with hbefore | hafter
    · exact ih (Nat.le_of_succ_le hn) hbefore
    · rcases hk.eq_or_lt with hend | hinside
      · exact ⟨n + 1, hn, .inl hend⟩
      · rw [encodeSeq_take_succ hv, List.length_append] at hinside
        exact ⟨n, Nat.le_of_succ_le hn, .inr ⟨_, hv, hafter, hinside⟩⟩

/-- What a cut at a record boundary keeps. -/
theorem take_encodeSeq_boundary (vs : List Value) (j : Nat) :
    (encodeSeq vs).take (encodeSeq (vs.take j)).length = encodeSeq (vs.take j) := by
  conv_lhs => arg 2; rw [← List.take_append_drop j vs, encodeSeq_append]
  exact List.take_left

/-- What a cut inside a record keeps: the records before it, and the bytes of that record up to the cut. -/
theorem take_encodeSeq_inside {vs : List Value} {j r : Nat} {v : Value} (hv : vs[j]? = some v)
    (hr : r ≤ (enc1 v).length) :
    (encodeSeq vs).take ((encodeSeq (vs.take j)).length + r) = encodeSeq (vs.take j) ++ (enc1 v).take r := by
  conv_lhs => arg 2; rw [← List.take_append_drop (j + 1) vs, encodeSeq_append, encodeSeq_take_succ hv]
  rw [List.append_assoc, List.take_length_add_append, List.take_append_of_le_length hr]

/-- Settles O53: what the cut keeps is an encoding, or one followed by a record cut short. -/
theorem cutOfEncoderOutput : Obligations.CutOfEncoderOutput := by
  intro vs k hk
  have hall : k ≤ (encodeSeq (vs.take vs.length)).length := by rwa [List.take_length]
  obtain ⟨j, hj, rfl | ⟨v, hv, hlo, hhi⟩⟩ := exists_cut_position le_rfl hall
  · exact .inl ⟨j, hj, rfl, by rw [take_encodeSeq_boundary, roundTrip]⟩
  · refine .inr ⟨j, v, hv, hlo, hhi, ?_⟩
    obtain ⟨r, rfl⟩ := Nat.exists_eq_add_of_le hlo.le
    have hcut := decodeBuf_of_truncated (decode_take_enc1 (v := v) (k := r) (by omega) (by omega))
    rw [take_encodeSeq_inside hv (by omega), decodeBuf_append (roundTrip _), hcut, foldr_consResult_err,
      Nat.add_sub_cancel_left]

/-! ### Fixed values (R182 to R184) -/

/-- Settles O46, by evaluation. -/
theorem boundaryExactness : Obligations.BoundaryExactness := by
  unfold Obligations.BoundaryExactness
  decide

/-- Settles O47: each tag with one payload byte too few. -/
theorem truncationDetection : Obligations.TruncationDetection :=
  ⟨decodeBuf_medium_short (by decide), decodeBuf_large_short (by decide)⟩

/-- Settles O48: the low byte of a small value is no tag (R94). -/
theorem tagNonCollision : Obligations.TagNonCollision := by
  intro v h1 h2
  obtain ⟨-, hm, hl⟩ := (fitsSmall_iff_byte_range v).mp ((fitsSmall_iff v).mpr ⟨h1, h2⟩)
  rw [← u8_toInt] at hm hl
  refine ⟨if_pos ⟨h1, h2⟩, ?_⟩
  bv_omega

end Sys2Proof.Machine
end

section
/-! PROOFS. The one exception, Truncated Record (60_exceptions.md): the step that takes it, and the unit at rest after
it. -/

namespace Sys2Proof.Machine

/-- A decoder in IDLE or DONE takes no step (R23); a turn it is given is a fault (U9). -/
theorem unitStep_dec_of_not_running {s : State} (h : s.dec.ph ≠ .run) :
    unitStep .dec s = .fault (.unitNotRunning .dec) := by
  have hstop : fetch .dec s = .stop (.unitNotRunning .dec) := by simp [fetch, fetchDec, h]
  exact unitStep_of_stop hstop

/-- In RUN at a tag with too few bytes after it, the decoder's step is the error step (R152, R203). -/
theorem unitStep_dec_of_short {s : State} {t : Byte} (hrun : s.dec.ph = .run) (hlt : s.dec.cur < s.dec.len)
    (ht : memGet s.dec.ib s.dec.cur = some t) (hshort : s.dec.len - s.dec.cur < recLen t) :
    unitStep .dec s = .next (takeTruncated (recLen t) (s.dec.len - s.dec.cur) s) :=
  unitStep_of_short (fetchDec_of_short hrun hlt ht hshort)

/-- The two tags that a number of bytes left can be too few for, and the length each asks for (R84, R200). -/
theorem recLen_of_tag_short {t : Byte} {rem : Nat} (h : (t = 0x80#8 ∧ rem < 3) ∨ (t = 0x81#8 ∧ rem < 5)) :
    recLen t = (if t = 0x80#8 then 3 else 5) ∧ rem < recLen t := by
  rcases h with ⟨rfl, hrem⟩ | ⟨rfl, hrem⟩ <;> exact ⟨rfl, hrem⟩

/-- Settles O21: the step takes Truncated Record with the tag's length, which leaves the unit in DONE. -/
theorem errorStepWrites : Obligations.ErrorStepWrites := by
  intro s ts t hts hrun hlt ht htag
  obtain ⟨hneed, hshort⟩ := recLen_of_tag_short htag
  have hstep : step s = .next (takeTruncated (recLen t) (s.dec.len - s.dec.cur) (s.withTurns ts)) :=
    (step_of_unit_turn hts).trans (unitStep_dec_of_short (s := s.withTurns ts) hrun hlt ht hshort)
  rw [hneed] at hstep
  exact ⟨_, hstep, rfl, unitStep_dec_of_not_running nofun⟩

end Sys2Proof.Machine
end

section
/-! PROOFS. The host's `reset` (70_reset_and_hazards.md): both units at their reset values, and nothing left to read. -/

namespace Sys2Proof.Machine

theorem hostMove_reset (s : State) : hostMove .reset s = .next { s with enc := Enc.reset, dec := Dec.reset } := rfl

/-- Settles O26: no unit is in DONE after the move, which is what a read asks for (R22). -/
theorem resetMoveFromAnyState : Obligations.ResetMoveFromAnyState := by
  intro s ts hts
  have hstep : step s = .next { s.withTurns ts with enc := Enc.reset, dec := Dec.reset } :=
    (step_of_host_turn hts).trans (hostMove_reset _)
  have henc : Enc.reset.ph ≠ .done := nofun
  have hdec : Dec.reset.ph ≠ .done := nofun
  exact ⟨_, hstep, rfl, rfl, rfl, hostMove_encRead_not_done henc, hostMove_decRead_not_done hdec⟩

end Sys2Proof.Machine
end

section
/-! PROOFS. The one form of every buffer (20_memory.md R50): a step writes a unit's buffers through `memWrite` and
`memSet`, which keep the form, or empties them by `reset`. -/

namespace Sys2Proof.Machine

/-- The one form of the four buffers, one unit at a time. -/
theorem canonical_iff (s : State) : s.canonical = true ↔
    (Memory.wf s.enc.iv = true ∧ Memory.wf s.enc.ob = true) ∧
    Memory.wf s.dec.ib = true ∧ Memory.wf s.dec.ov = true := by
  simp only [State.canonical, Bool.and_eq_true, and_assoc]

/-- The encoder's buffers: a start writes the input, a value step the output. -/
theorem step_keeps_enc_wf {s t : State} (h : step s = .next t)
    (hs : Memory.wf s.enc.iv = true ∧ Memory.wf s.enc.ob = true) :
    Memory.wf t.enc.iv = true ∧ Memory.wf t.enc.ob = true := by
  obtain ⟨hiv, hob⟩ := hs
  obtain ⟨hivReset, hobReset, -, -⟩ := reset_wf
  rcases step_enc_next h with he | ⟨vs, -, -, -, he⟩ | ⟨-, -, he⟩ | ⟨-, -, -, ⟨-, he⟩ | ⟨v, -, he⟩⟩ <;> rw [he]
  · exact ⟨hiv, hob⟩
  · exact ⟨wf_memWrite 0 vs hiv, hob⟩
  · exact ⟨hivReset, hobReset⟩
  · exact ⟨hiv, hob⟩
  · exact ⟨hiv, wf_memWrite _ _ hob⟩

/-- The decoder's buffers: a start writes the input, a record step the output, and the error step neither. -/
theorem step_keeps_dec_wf {s t : State} (h : step s = .next t)
    (hs : Memory.wf s.dec.ib = true ∧ Memory.wf s.dec.ov = true) :
    Memory.wf t.dec.ib = true ∧ Memory.wf t.dec.ov = true := by
  obtain ⟨hib, hov⟩ := hs
  obtain ⟨-, -, hibReset, hovReset⟩ := reset_wf
  rcases step_dec_next h with hd | ⟨bs, -, -, -, hd⟩ | ⟨-, -, hd⟩ |
    ⟨-, -, -, ⟨-, hd⟩ | ⟨b, -, hd⟩ | ⟨i, -, hd⟩⟩ <;> rw [hd]
  · exact ⟨hib, hov⟩
  · exact ⟨wf_memWrite 0 bs hib, hov⟩
  · exact ⟨hibReset, hovReset⟩
  · exact ⟨hib, hov⟩
  · exact ⟨hib, hov⟩
  · exact ⟨hib, wf_memSet _ _ hov⟩

/-- Settles O33: each unit's two buffers keep the form. -/
theorem stepKeepsBuffersCanonical : Obligations.StepKeepsBuffersCanonical := by
  intro s t hs h
  obtain ⟨henc, hdec⟩ := (canonical_iff s).mp hs
  exact (canonical_iff t).mpr ⟨step_keeps_enc_wf h henc, step_keeps_dec_wf h hdec⟩

end Sys2Proof.Machine
end
